-- ==== Sys2Proof/Word.lean ====
section
/-! DEFINITION. The word type of the core: every value is an unsigned byte (00_scope.md R11). -/

namespace Sys2Proof

/-- An unsigned 8-bit value (00_scope.md R11). `+`, `-` and `*` on it are the spec's `+8`, `-8`, `*8`. -/
abbrev Byte := BitVec 8

/-- A general register index, 0..7 (10_state.md R20). -/
abbrev Reg := Fin 8

end Sys2Proof
end

