-- ==== Sys2Proof/Config.lean ====
section
/-! DEFINITION. The parameters of 00_scope.md R8: the fixed ones as numbers, the OPEN ones as constants with no
body, so that nothing in Lean can tell their values and a claim holds for every value the spec allows. -/

namespace Sys2Proof.Config

/-- SP_RESET (00_scope.md R8, 10_state.md R22). -/
def spReset : Byte := 0xF4

/-- VECTOR_ADDR, the one interrupt vector cell (00_scope.md R8, 20_memory.md R57). -/
def vectorAddr : Byte := 0xF8

/-- MAX_IMAGE (00_scope.md R8, 60_exceptions.md R230). -/
def maxImage : Nat := 256

/-- Free value: FL_RESET less 8. FL_RESET[7:3] ≠ 0 says exactly that FL_RESET is one of 8..255
(10_state.md R27; log 2, DESIGN CHOICE: the form; safe). -/
opaque flResetLess8 : Fin 248

/-- FL_RESET (10_state.md R27): any byte with FL_RESET[7:3] ≠ 0, and no more is known of it. -/
def flReset : Byte := BitVec.ofNat 8 (8 + flResetLess8.val)

/-- Free value: IM_REENABLE less 1 (44_interrupt_return.md R170; log 4, DESIGN CHOICE: the form; safe). -/
opaque imReenableLess1 : Fin 255

/-- IM_REENABLE (44_interrupt_return.md R170): any byte but 0, and no more is known of it. -/
def imReenable : Byte := BitVec.ofNat 8 (1 + imReenableLess1.val)

/-- Free value: what IR holds before the first fetch (10_state.md R33, 93 U15; log 3, DESIGN CHOICE; safe). -/
opaque irReset : Byte

/-- Free value: the TIME input at reset (10_state.md R36; log 5, DESIGN CHOICE: the form; safe). -/
opaque timeAtReset : Nat

/-- Free value: how far the TIME input moves on before poll number n. The host never lets TIME decrease
(60_exceptions.md R234), so any sequence of TIME values is a sequence of such advances (log 5). -/
opaque timeAdvance : Nat → Nat

/-- Free value: the TIME units in one second, less 1 (60_exceptions.md R234; log 5). -/
opaque timeUnitsPerSecondLess1 : Nat

/-- TIMER_PERIOD: one second in the units of the TIME input, never 0 (00_scope.md R8, 60_exceptions.md R210). -/
def timerPeriod : Nat := timeUnitsPerSecondLess1 + 1

/-- Free value: EXIT_FAULT less 1, of the host (60_exceptions.md R205; log 11). -/
opaque exitFaultLess1 : Nat

/-- EXIT_FAULT, the host's non-zero exit code for every fault (60_exceptions.md R205). -/
def exitFault : Nat := exitFaultLess1 + 1

/-- Free value: PRA_TERMINATOR, what the host prints after a PRA character (60_exceptions.md R232; log 11). -/
opaque praTerminator : String

/-- Free value: the line end the host prints after a PRN number (60_exceptions.md R232; log 11). -/
opaque lineEnd : String

/-- Free value: what the host prints for a character code of 0x80 to 0xFF, the only codes whose character set
45_data_plain.md R183 leaves to the host (log 11). -/
opaque highCharText : Byte → String

end Sys2Proof.Config
end

