-- ==== Sys2Proof/Machine/State.lean ====
section
/-! DEFINITION. Everything the spec gives the machine (10_state.md R20 to R38), as plain data, its value at reset
(70_reset_and_hazards.md R250), and the reasons a step can stop. -/

namespace Sys2Proof.Machine

/-- The kinds of fatal error (60_exceptions.md R207). -/
inductive FaultKind where
  /-- The opcode byte is not registered (60_exceptions.md R202). -/
  | unknownOpcode
  /-- The ALU is dispatched with an opcode that is none of its six: never in this hardware (60_exceptions.md R206). -/
  | unsupportedAluOperation
  /-- DIV or MOD with a zero divisor (60_exceptions.md R204). -/
  | divisionByZero
  /-- A register operand byte above 7 (60_exceptions.md R203). -/
  | invalidRegister
  deriving DecidableEq, Repr

/-- A FAULT record (10_state.md R35): the kind, the opcode byte and the address it was fetched from. -/
structure FaultRecord where
  kind : FaultKind
  opcode : Byte
  addr : Byte
  deriving DecidableEq, Repr

/-- An event on the OUT port (00_scope.md R9 (d)). -/
inductive OutEvent where
  | dec (v : Byte)
  | chr (v : Byte)
  deriving DecidableEq, Repr

/-- Memory as its listed cells: addresses strictly rising, none listed with the value an unlisted cell reads as. -/
abbrev Memory := List Host.Cell

/-- Why a step answers no next state. Each is raised by `step` alone, on a core that has already stopped; both are
safe: no cycle of the hardware runs there either (40_execution_engine.md R101; log 6). -/
inductive Fault where
  /-- HALTED is set: the run has ended normally, status Halted (60_exceptions.md R205). Raised by `step`. Safe. -/
  | halted
  /-- FAULT holds this record: the run has ended by a fatal error (60_exceptions.md R205). Raised by `step`. Safe. -/
  | fatal (r : FaultRecord)
  deriving DecidableEq, Repr

/-- What the model refuses. -/
inductive Refusal where
  /-- An instruction with no meaning yet, by its mnemonic. No arm of `exec` raises it in this model. Safe. -/
  | notModelled (mnemonic : String)
  /-- LOAD of an image longer than 256 bytes (60_exceptions.md R230). Raised by `loadPort` alone, never by a step.
  Safe. -/
  | imageTooLong
  deriving DecidableEq, Repr

/-- The state of the core. -/
structure State where
  /-- x[0]..x[7] (10_state.md R20); x[5] is IM, x[6] IS, x[7] SP (R21). -/
  regs : Vector Byte 8
  /-- PC (10_state.md R24). -/
  pc : Byte
  /-- FL: bit 0 E, bit 1 G, bit 2 L, bits 3 to 7 reserved and kept (10_state.md R26). -/
  fl : Byte
  /-- M[0..255] (10_state.md R32). -/
  mem : Memory
  /-- IR, the opcode byte fetched last (10_state.md R33). -/
  ir : Byte
  /-- HALTED (10_state.md R34). -/
  halted : Bool
  /-- FAULT (10_state.md R35). -/
  fault : Option FaultRecord
  /-- T_ref (10_state.md R36). -/
  tRef : Nat
  /-- OUTLOG, oldest first (10_state.md R37). -/
  out : List OutEvent
  /-- The model's own: the TIME port's value at the last poll, or at reset before any (60_exceptions.md R234; log 5). -/
  time : Nat
  /-- The model's own: how many polls have been made, to which the free TIME input is applied (log 5). -/
  polls : Nat
  deriving DecidableEq, Repr

/-- The machine right after reset (70_reset_and_hazards.md R250). FL, IR and the time at reset are bodiless constants
of Config (logs 2, 3, 5); `time` and `polls` are the model's own (log 5). -/
def State.reset : State where
  regs := #v[0, 0, 0, 0, 0, 0, 0, Config.spReset]
  pc := 0
  fl := Config.flReset
  mem := []
  ir := Config.irReset
  halted := false
  fault := none
  tRef := Config.timeAtReset
  out := []
  time := Config.timeAtReset
  polls := 0

end Sys2Proof.Machine
end

