-- ==== Sys2Proof/Machine/Flags.lean ====
section
/-! DEFINITION. The flags register FL: its three named bits (10_state.md R26) and the flag computation of CMP
(41_alu.md R126), the only one the core has (10_state.md R28). -/

namespace Sys2Proof.Machine

/-- E, bit 0: equal (10_state.md R26). -/
def flagE (fl : Byte) : Bool := fl.getLsbD 0

/-- G, bit 1: greater (10_state.md R26). -/
def flagG (fl : Byte) : Bool := fl.getLsbD 1

/-- L, bit 2: less (10_state.md R26). -/
def flagL (fl : Byte) : Bool := fl.getLsbD 2

/-- FL after CMP of the unsigned values a and b: E, G and L cleared, then the one of them that holds set, bits 3 to 7
kept (41_alu.md R126). -/
def cmpFlags (fl a b : Byte) : Byte :=
  let f := fl &&& 0b11111000
  if a.toNat = b.toNat then f ||| 0b00000001
  else if b.toNat < a.toNat then f ||| 0b00000010
  else f ||| 0b00000100

end Sys2Proof.Machine
end

