-- ==== Sys2Proof/Syntax.lean ====
section
/-! DEFINITION. The twenty instructions of 30_encoding.md R78, in the order of spec/opcode_table.json. A register
operand is held as the whole byte that names it (30_encoding.md R73); `Instr.wellFormed` says it is 0..7. -/

namespace Sys2Proof

/-- One constructor per row of spec/opcode_table.json. `ra` is op1, `rb` or `imm` op2 (00_scope.md R13). -/
inductive Instr where
  | nop
  | hlt
  | ret
  | iret
  | push (ra : Byte)
  | pop (ra : Byte)
  | prn (ra : Byte)
  | pra (ra : Byte)
  | call (ra : Byte)
  | jmp (ra : Byte)
  | jeq (ra : Byte)
  | jne (ra : Byte)
  | ldi (ra imm : Byte)
  | st (ra rb : Byte)
  | add (ra rb : Byte)
  | sub (ra rb : Byte)
  | mul (ra rb : Byte)
  | div (ra rb : Byte)
  | mod (ra rb : Byte)
  | cmp (ra rb : Byte)
  deriving DecidableEq, Repr

end Sys2Proof
end

