-- ==== Sys2Proof/WellFormed.lean ====
section
/-! DEFINITION. Which instructions are well formed: every register operand is in 0..7 (30_encoding.md R73). -/

namespace Sys2Proof

/-- The operand bytes that 30_encoding.md R74 marks as register indexes: op1 of F1R, F2RR and F2RI, op2 of F2RR. -/
def Instr.registerOperands : Instr → List Byte
  | .nop | .hlt | .ret | .iret => []
  | .push ra | .pop ra | .prn ra | .pra ra | .call ra | .jmp ra | .jeq ra | .jne ra => [ra]
  | .ldi ra _ => [ra]
  | .st ra rb | .add ra rb | .sub ra rb | .mul ra rb | .div ra rb | .mod ra rb | .cmp ra rb => [ra, rb]

/-- Every register operand is in 0..7; the immediate of LDI and the bytes after an F0 opcode are not checked
(30_encoding.md R73, 40_execution_engine.md R105). -/
def Instr.wellFormed (i : Instr) : Bool := i.registerOperands.all fun b => decide (b.toNat < 8)

end Sys2Proof
end

