-- ==== Sys2Proof/Decode.lean ====
section
/-! DEFINITION. Decoding and encoding, from the opcode map of 30_encoding.md R78. The decoder takes the three bytes
every cycle fetches (40_execution_engine.md R103), is total, and rejects an unregistered opcode by name. -/

namespace Sys2Proof

/-- The registered opcodes (30_encoding.md R78), named by their mnemonics. -/
inductive Opcode where
  | nop | hlt | ret | iret | push | pop | prn | pra | call | jmp | jeq | jne
  | ldi | st | add | sub | mul | div | mod | cmp
  deriving DecidableEq, Repr

/-- The opcode byte of a mnemonic: the table of 30_encoding.md R78 (PRESUMED by the spec itself, D1; log 1). -/
def opcodeByte : Opcode → Byte
  | .nop => 0x00
  | .hlt => 0x01
  | .ret => 0x11
  | .iret => 0x13
  | .push => 0x45
  | .pop => 0x46
  | .prn => 0x47
  | .pra => 0x48
  | .call => 0x50
  | .jmp => 0x54
  | .jeq => 0x55
  | .jne => 0x56
  | .ldi => 0x82
  | .st => 0x84
  | .add => 0xA0
  | .sub => 0xA1
  | .mul => 0xA2
  | .div => 0xA3
  | .mod => 0xA4
  | .cmp => 0xA7

/-- All registered opcodes, in the table's order. -/
def allOpcodes : List Opcode :=
  [.nop, .hlt, .ret, .iret, .push, .pop, .prn, .pra, .call, .jmp, .jeq, .jne,
   .ldi, .st, .add, .sub, .mul, .div, .mod, .cmp]

/-- The registered opcode of a byte, if it has one: the whole byte selects it (30_encoding.md R76). -/
def opcodeOf (b : Byte) : Option Opcode := allOpcodes.find? fun o => opcodeByte o == b

/-- The operand count, bits 7:6 of the opcode byte (30_encoding.md R71). -/
def operandCount (b : Byte) : Nat := (b.extractLsb' 6 2).toNat

/-- The PC-mutation flag, bit 4 of the opcode byte (30_encoding.md R71). -/
def pcMutation (b : Byte) : Bool := b.getLsbD 4

/-- The length in bytes of an instruction, from its opcode byte alone (30_encoding.md R70, R75). -/
def instrLength (b : Byte) : Nat := operandCount b + 1

/-- The instruction of a registered opcode with the operand bytes its format uses (30_encoding.md R74). -/
def instrOf (op1 op2 : Byte) : Opcode → Instr
  | .nop => .nop
  | .hlt => .hlt
  | .ret => .ret
  | .iret => .iret
  | .push => .push op1
  | .pop => .pop op1
  | .prn => .prn op1
  | .pra => .pra op1
  | .call => .call op1
  | .jmp => .jmp op1
  | .jeq => .jeq op1
  | .jne => .jne op1
  | .ldi => .ldi op1 op2
  | .st => .st op1 op2
  | .add => .add op1 op2
  | .sub => .sub op1 op2
  | .mul => .mul op1 op2
  | .div => .div op1 op2
  | .mod => .mod op1 op2
  | .cmp => .cmp op1 op2

/-- Why a decode is rejected: the opcode byte is not registered (40_execution_engine.md R104). A register operand
above 7 is no decode error: the operand check after the decode answers it (R105). -/
inductive DecodeError where
  | unknownOpcode (opcode : Byte)
  deriving DecidableEq, Repr

/-- Decode the opcode byte and the two bytes after it (40_execution_engine.md R103, R104). -/
def decode (opcode op1 op2 : Byte) : Except DecodeError Instr :=
  match opcodeOf opcode with
  | some o => .ok (instrOf op1 op2 o)
  | none => .error (.unknownOpcode opcode)

/-- Decode the instruction at the head of a byte sequence; a byte past its end reads 0. -/
def decodeBytes (bytes : List Byte) : Except DecodeError Instr :=
  decode (bytes.getD 0 0) (bytes.getD 1 0) (bytes.getD 2 0)

/-- The opcode of an instruction. -/
def Instr.opcode : Instr → Opcode
  | .nop => .nop
  | .hlt => .hlt
  | .ret => .ret
  | .iret => .iret
  | .push _ => .push
  | .pop _ => .pop
  | .prn _ => .prn
  | .pra _ => .pra
  | .call _ => .call
  | .jmp _ => .jmp
  | .jeq _ => .jeq
  | .jne _ => .jne
  | .ldi _ _ => .ldi
  | .st _ _ => .st
  | .add _ _ => .add
  | .sub _ _ => .sub
  | .mul _ _ => .mul
  | .div _ _ => .div
  | .mod _ _ => .mod
  | .cmp _ _ => .cmp

/-- The operand bytes of an instruction, in the order they follow the opcode (30_encoding.md R74). -/
def Instr.operands : Instr → List Byte
  | .nop | .hlt | .ret | .iret => []
  | .push ra | .pop ra | .prn ra | .pra ra | .call ra | .jmp ra | .jeq ra | .jne ra => [ra]
  | .ldi ra b | .st ra b | .add ra b | .sub ra b | .mul ra b | .div ra b | .mod ra b | .cmp ra b => [ra, b]

/-- The bytes of an instruction, opcode first (30_encoding.md R74, 20_memory.md R53). -/
def encode (i : Instr) : List Byte := opcodeByte i.opcode :: i.operands

/-- The byte that names a register as an operand (30_encoding.md R73). -/
def regByte (r : Reg) : Byte := BitVec.ofNat 8 r.val

/-- Byte k of an instruction of nbits bits given as one number, its first byte the least significant; the bits at
nbits and above are 0. -/
def tableByte (nbits w k : Nat) : Byte := BitVec.ofNat 8 ((w % 2 ^ nbits) / 2 ^ (8 * k))

/-- What `decode` reads from an instruction whose bits are numbered as spec/opcode_table.json numbers them. -/
def decodeTableWord (nbits w : Nat) : Option Instr :=
  match decode (tableByte nbits w 0) (tableByte nbits w 1) (tableByte nbits w 2) with
  | .ok i => some i
  | .error _ => none

end Sys2Proof
end

