-- ==== Sys2Proof/Machine/Ops.lean ====
section
/-! DEFINITION. The named operations over registers, memory and the stack, the timer poll, taking an interrupt and
returning from one, raising a fatal error, and the engine's dispatch and PC advance. -/

namespace Sys2Proof.Machine

/-! ### Memory (20_memory.md) -/

/-- What a cell reads as when nothing has written it since reset: 0 (10_state.md R32, 20_memory.md R50). -/
def Memory.unlisted : Byte := 0

/-- `MemRead(addr, 1)` (20_memory.md R50). -/
def Memory.read : Memory → Byte → Byte
  | [], _ => Memory.unlisted
  | (k, v) :: m, a => if k = a.toNat then v else Memory.read m a

/-- The cells other than the one at address k. -/
def Memory.erase : Memory → Nat → Memory
  | [], _ => []
  | (j, v) :: m, k => if j = k then Memory.erase m k else (j, v) :: Memory.erase m k

/-- List a cell before the first one of a higher address. -/
def Memory.insert : Memory → Nat → Byte → Memory
  | [], k, v => [(k, v)]
  | (j, w) :: m, k, v => if k < j then (k, v) :: (j, w) :: m else (j, w) :: Memory.insert m k v

/-- `MemWrite(addr, 1, v)` (20_memory.md R51): it keeps the canonical form. -/
def Memory.write (m : Memory) (a v : Byte) : Memory :=
  if v = Memory.unlisted then m.erase a.toNat else (m.erase a.toNat).insert a.toNat v

/-- The canonical form from address `lo` on: listed addresses rise strictly and are below 256, and no cell is
listed with the value an unlisted one reads as (log 9). -/
def Memory.wfFrom : Nat → Memory → Bool
  | _, [] => true
  | lo, (k, v) :: m => decide (lo ≤ k) && decide (k < 256) && v != Memory.unlisted && Memory.wfFrom (k + 1) m

/-- The canonical form of a memory (log 9): equal memories are equal lists. -/
def Memory.wf (m : Memory) : Bool := Memory.wfFrom 0 m

namespace State

/-- `MemRead(a, 1)` (20_memory.md R50). -/
def readByte (s : State) (a : Byte) : Byte := s.mem.read a

/-- `MemWrite(a, 1, v)` (20_memory.md R51). -/
def writeByte (s : State) (a v : Byte) : State := { s with mem := s.mem.write a v }

/-! ### Registers and the other state (10_state.md) -/

/-- `x[r]` (10_state.md R20): no register is hard-wired. -/
def reg (s : State) (r : Reg) : Byte := s.regs[r]

/-- `x[r] <- v` (10_state.md R20). -/
def setReg (s : State) (r : Reg) (v : Byte) : State := { s with regs := s.regs.set r v }

/-- `pc <- a` (10_state.md R24). -/
def setPc (s : State) (a : Byte) : State := { s with pc := a }

/-- `FL <- f` (10_state.md R28). -/
def setFl (s : State) (f : Byte) : State := { s with fl := f }

/-- `IR <- b` (10_state.md R33). -/
def setIr (s : State) (b : Byte) : State := { s with ir := b }

/-- `HALTED <- true` (10_state.md R34). -/
def halt (s : State) : State := { s with halted := true }

/-- `Emit(Dec, v)` and `Emit(Chr, v)`: append an event to OUTLOG (10_state.md R37). -/
def emit (s : State) (e : OutEvent) : State := { s with out := s.out ++ [e] }

end State

/-- R5, the interrupt mask IM (10_state.md R21). -/
def IM : Reg := 5

/-- R6, the interrupt status IS (10_state.md R21). -/
def IS : Reg := 6

/-- R7, the stack pointer SP (10_state.md R21). -/
def SP : Reg := 7

/-! ### Stack primitives (42_stack_calls.md) -/

/-- `Push(v)`: decrement x[7], then write v at the new x[7] (42_stack_calls.md R140). -/
def push (v : Byte) (s : State) : State :=
  let s₁ := s.setReg SP (s.reg SP - 1)
  s₁.writeByte (s₁.reg SP) v

/-- `Pop()`: read the cell at x[7], then increment x[7] (42_stack_calls.md R141). -/
def pop (s : State) : Byte × State := (s.readByte (s.reg SP), s.setReg SP (s.reg SP + 1))

/-- `x[r] <- Pop()` for a register r other than x[7], as IRET does it (44_interrupt_return.md R170). -/
def popInto (r : Reg) (s : State) : State := (pop s).2.setReg r (pop s).1

/-! ### Fatal errors (60_exceptions.md section 1) -/

/-- The code of a fault kind (60_exceptions.md R207). -/
def faultCode : FaultKind → Nat
  | .unknownOpcode => 1
  | .unsupportedAluOperation => 2
  | .divisionByZero => 3
  | .invalidRegister => 4

/-- `raise kind(opcode, addr)`: FAULT takes the record and nothing else changes (60_exceptions.md R201). -/
def raise (kind : FaultKind) (opcode addr : Byte) (s : State) : State :=
  { s with fault := some { kind := kind, opcode := opcode, addr := addr } }

/-! ### The timer (60_exceptions.md section 2) -/

/-- The TIME input at the next poll: never below the last value, otherwise free (60_exceptions.md R234; log 5). -/
def timeInput (s : State) : Nat := s.time + Config.timeAdvance s.polls

/-- Whether a poll at TIME `now` is a tick: at least TIMER_PERIOD since T_ref (60_exceptions.md R210). -/
def isTick (now : Nat) (s : State) : Bool := decide (Config.timerPeriod ≤ now - s.tRef)

/-- TimerPoll with TIME = `now`: on a tick, x[6] bit 0 is set and T_ref becomes `now` (60_exceptions.md R210). -/
def timerPoll (now : Nat) (s : State) : State :=
  { s with
    regs := s.regs.set IS (if isTick now s then s.reg IS ||| 0b00000001 else s.reg IS)
    tRef := if isTick now s then now else s.tRef
    time := now
    polls := s.polls + 1 }

/-! ### The interrupt controller (60_exceptions.md section 3) -/

/-- The line that fires: the first of the eight, low bit first, set in both x[5] and x[6] (60_exceptions.md R213). -/
def pendingLine (s : State) : Option Reg :=
  (List.finRange 8).find? fun i => (s.reg IM).getLsbD i && (s.reg IS).getLsbD i

/-- The registers pushed by interrupt entry, in order (60_exceptions.md R215). -/
def savedRegs : List Reg := [0, 1, 2, 3, 4, 5, 6]

/-- InterruptEntry (60_exceptions.md R215): clear x[5] and x[6], push PC, FL and x[0]..x[6], then go to the address
in the vector cell. Every line uses the one cell, so the line number selects nothing. -/
def interruptEntry (_line : Reg) (s : State) : State :=
  let s₁ := (s.setReg IM 0).setReg IS 0
  let s₂ := push s₁.fl (push s₁.pc s₁)
  let s₃ := savedRegs.foldl (fun t r => push (t.reg r) t) s₂
  s₃.setPc (s₃.readByte Config.vectorAddr)

/-- The return from an interrupt (44_interrupt_return.md R170): pop x[6] down to x[0], FL and PC, then write
IM_REENABLE to x[5]. -/
def interruptReturn (s : State) : State :=
  let s₁ := savedRegs.reverse.foldl (fun t r => popInto r t) s
  let s₂ := (pop s₁).2.setFl (pop s₁).1
  let s₃ := (pop s₂).2.setPc (pop s₂).1
  s₃.setReg IM Config.imReenable

/-- InterruptCheck: at most one interrupt is taken (60_exceptions.md R213). -/
def interruptCheck (s : State) : State :=
  match pendingLine s with
  | none => s
  | some i => interruptEntry i s

/-! ### The engine (40_execution_engine.md) -/

/-- What every cycle does before its fetch: the poll, then the interrupt check (40_execution_engine.md R100). -/
def topOfCycle (s : State) : State := interruptCheck (timerPoll (timeInput s) s)

/-- Decode the three bytes at PC (40_execution_engine.md R102 to R104). -/
def decodeAtPc (s : State) : Except DecodeError Instr :=
  decode (s.readByte s.pc) (s.readByte (s.pc + 1)) (s.readByte (s.pc + 2))

/-- The fetch's write of IR (40_execution_engine.md R102). -/
def fetch (s : State) : State := s.setIr (s.readByte s.pc)

/-- What a handler does: it changes the state, or raises a fatal error having written nothing
(60_exceptions.md R200). -/
abbrev Handled := Except FaultKind State

/-- The end of the cycle of opcode `o` at state `s`, given what its handler did (40_execution_engine.md R106, R110):
a raised error is recorded with the opcode and its address and PC stays; otherwise PC advances past the instruction
unless the PC-mutation flag says the handler wrote it. -/
def finish (o : Opcode) (s : State) (h : Handled) : Host.Outcome State Fault Refusal :=
  .next (match h with
    | .error kind => raise kind (opcodeByte o) s.pc s
    | .ok t =>
      if pcMutation (opcodeByte o) then t
      else t.setPc (s.pc + BitVec.ofNat 8 (instrLength (opcodeByte o))))

end Sys2Proof.Machine
end

