-- ==== Sys2Proof/Machine/Operands.lean ====
section
/-! DEFINITION. The four operand forms of 30_encoding.md R74, each with the register-operand check of
40_execution_engine.md R105 made before the handler runs, and the engine's end of cycle after it. -/

namespace Sys2Proof.Machine

/-- The register a register-operand byte names; a byte above 7 raises InvalidRegister (40_execution_engine.md R105). -/
def regOperand (b : Byte) : Except FaultKind Reg :=
  if h : b.toNat < 8 then .ok ⟨b.toNat, h⟩ else .error .invalidRegister

/-- Run a handler with the register an operand byte names, if it names one (40_execution_engine.md R105). -/
def withReg (b : Byte) (k : Reg → Handled) : Handled :=
  match regOperand b with
  | .ok r => k r
  | .error e => .error e

/-- Format F0: no operand. -/
def formF0 (o : Opcode) (h : State → Handled) (s : State) : Host.Outcome State Fault Refusal :=
  finish o s (h s)

/-- Format F1R: one register operand. -/
def formF1R (o : Opcode) (h : Reg → State → Handled) (ra : Byte) (s : State) : Host.Outcome State Fault Refusal :=
  finish o s (withReg ra fun a => h a s)

/-- Format F2RR: two register operands. -/
def formF2RR (o : Opcode) (h : Reg → Reg → State → Handled) (ra rb : Byte) (s : State) :
    Host.Outcome State Fault Refusal :=
  finish o s (withReg ra fun a => withReg rb fun b => h a b s)

/-- Format F2RI: a register operand and an immediate byte, which is not checked. -/
def formF2RI (o : Opcode) (h : Reg → Byte → State → Handled) (ra imm : Byte) (s : State) :
    Host.Outcome State Fault Refusal :=
  finish o s (withReg ra fun a => h a imm s)

end Sys2Proof.Machine
end

