-- ==== Sys2Proof/Machine/Alu.lean ====
section
/-! DEFINITION. The ALU instructions ADD, SUB, MUL, DIV, MOD, CMP (41_alu.md). -/

namespace Sys2Proof.Machine

/-- The one ALU handler, which chooses its operation by the opcode byte the instruction register holds
(41_alu.md R120; log 7). Any other opcode is an unsupported ALU operation (60_exceptions.md R206). -/
def alu (ir : Byte) (a b : Reg) (s : State) : Handled :=
  match opcodeOf ir with
  | some .add => .ok (s.setReg a (s.reg a + s.reg b))
  | some .sub => .ok (s.setReg a (s.reg a - s.reg b))
  | some .mul => .ok (s.setReg a (s.reg a * s.reg b))
  | some .div => if s.reg b = 0 then .error .divisionByZero else .ok (s.setReg a (s.reg a / s.reg b))
  | some .mod => if s.reg b = 0 then .error .divisionByZero else .ok (s.setReg a (s.reg a % s.reg b))
  | some .cmp => .ok (s.setFl (cmpFlags s.fl (s.reg a) (s.reg b)))
  | _ => .error .unsupportedAluOperation

/-- ADD (41_alu.md R121). -/
def execAdd (ra rb : Byte) (s : State) : Host.Outcome State Fault Refusal :=
  formF2RR .add (alu (opcodeByte .add)) ra rb s

/-- SUB (41_alu.md R122). -/
def execSub (ra rb : Byte) (s : State) : Host.Outcome State Fault Refusal :=
  formF2RR .sub (alu (opcodeByte .sub)) ra rb s

/-- MUL (41_alu.md R123). -/
def execMul (ra rb : Byte) (s : State) : Host.Outcome State Fault Refusal :=
  formF2RR .mul (alu (opcodeByte .mul)) ra rb s

/-- DIV: unsigned quotient; a zero divisor raises DivisionByZero with nothing written (41_alu.md R124). -/
def execDiv (ra rb : Byte) (s : State) : Host.Outcome State Fault Refusal :=
  formF2RR .div (alu (opcodeByte .div)) ra rb s

/-- MOD: unsigned remainder; a zero divisor raises DivisionByZero with nothing written (41_alu.md R125). -/
def execMod (ra rb : Byte) (s : State) : Host.Outcome State Fault Refusal :=
  formF2RR .mod (alu (opcodeByte .mod)) ra rb s

/-- CMP (41_alu.md R126). -/
def execCmp (ra rb : Byte) (s : State) : Host.Outcome State Fault Refusal :=
  formF2RR .cmp (alu (opcodeByte .cmp)) ra rb s

end Sys2Proof.Machine
end

