-- ==== Sys2Proof/Machine/Branch.lean ====
section
/-! DEFINITION. The jump and the conditional branches JMP, JEQ, JNE (43_branch.md). -/

namespace Sys2Proof.Machine

/-- The branch of JEQ and JNE: to x[a] if taken, else past the two bytes of the instruction; the handler writes PC on
both paths (43_branch.md R161, R162). -/
def branchTo (taken : Bool) (a : Reg) (s : State) : Handled := .ok (s.setPc (if taken then s.reg a else s.pc + 2))

/-- JMP (43_branch.md R160). -/
def execJmp (ra : Byte) (s : State) : Host.Outcome State Fault Refusal :=
  formF1R .jmp (fun a t => .ok (t.setPc (t.reg a))) ra s

/-- JEQ: taken when FL bit 0 is set (43_branch.md R161). -/
def execJeq (ra : Byte) (s : State) : Host.Outcome State Fault Refusal :=
  formF1R .jeq (fun a t => branchTo (flagE t.fl) a t) ra s

/-- JNE: taken when FL bit 0 is clear (43_branch.md R162). -/
def execJne (ra : Byte) (s : State) : Host.Outcome State Fault Refusal :=
  formF1R .jne (fun a t => branchTo (!flagE t.fl) a t) ra s

end Sys2Proof.Machine
end

