-- ==== Sys2Proof/Machine/Data.lean ====
section
/-! DEFINITION. Data movement, output and the plain instructions LDI, ST, PRN, PRA, NOP, HLT (45_data_plain.md). -/

namespace Sys2Proof.Machine

/-- LDI (45_data_plain.md R180). -/
def execLdi (ra imm : Byte) (s : State) : Host.Outcome State Fault Refusal :=
  formF2RI .ldi (fun a v t => .ok (t.setReg a v)) ra imm s

/-- ST: x[rb] into the cell x[ra] addresses (45_data_plain.md R181). -/
def execSt (ra rb : Byte) (s : State) : Host.Outcome State Fault Refusal :=
  formF2RR .st (fun a b t => .ok (t.writeByte (t.reg a) (t.reg b))) ra rb s

/-- PRN (45_data_plain.md R182). -/
def execPrn (ra : Byte) (s : State) : Host.Outcome State Fault Refusal :=
  formF1R .prn (fun a t => .ok (t.emit (.dec (t.reg a)))) ra s

/-- PRA (45_data_plain.md R183). -/
def execPra (ra : Byte) (s : State) : Host.Outcome State Fault Refusal :=
  formF1R .pra (fun a t => .ok (t.emit (.chr (t.reg a)))) ra s

/-- NOP (45_data_plain.md R184). -/
def execNop (s : State) : Host.Outcome State Fault Refusal := formF0 .nop (fun t => .ok t) s

/-- HLT (45_data_plain.md R185). -/
def execHlt (s : State) : Host.Outcome State Fault Refusal := formF0 .hlt (fun t => .ok t.halt) s

end Sys2Proof.Machine
end

