-- ==== Sys2Proof/Machine/InterruptReturn.lean ====
section
/-! DEFINITION. The return from interrupt, IRET (44_interrupt_return.md). -/

namespace Sys2Proof.Machine

/-- IRET (44_interrupt_return.md R170). -/
def execIret (s : State) : Host.Outcome State Fault Refusal := formF0 .iret (fun t => .ok (interruptReturn t)) s

end Sys2Proof.Machine
end

