-- ==== Sys2Proof/Machine/Stack.lean ====
section
/-! DEFINITION. The stack and subroutine-call instructions PUSH, POP, CALL, RET (42_stack_calls.md). -/

namespace Sys2Proof.Machine

/-- PUSH: the register is read after the decrement, so PUSH R7 stores the decremented x[7] (42_stack_calls.md R142). -/
def pushHandler (a : Reg) (s : State) : Handled :=
  let s₁ := s.setReg SP (s.reg SP - 1)
  .ok (s₁.writeByte (s₁.reg SP) (s₁.reg a))

/-- POP: the register is written before the increment, so POP R7 leaves the popped byte plus 1
(42_stack_calls.md R143). -/
def popHandler (a : Reg) (s : State) : Handled :=
  let s₁ := s.setReg a (s.readByte (s.reg SP))
  .ok (s₁.setReg SP (s₁.reg SP + 1))

/-- CALL: push the address of the instruction after it, then jump; the target is read after the push
(42_stack_calls.md R144). -/
def callHandler (a : Reg) (s : State) : Handled :=
  let s₁ := push (s.pc + 2) s
  .ok (s₁.setPc (s₁.reg a))

/-- RET: `pc <- Pop()` (42_stack_calls.md R145). -/
def retHandler (s : State) : Handled := .ok ((pop s).2.setPc (pop s).1)

/-- PUSH (42_stack_calls.md R142). -/
def execPush (ra : Byte) (s : State) : Host.Outcome State Fault Refusal := formF1R .push pushHandler ra s

/-- POP (42_stack_calls.md R143). -/
def execPop (ra : Byte) (s : State) : Host.Outcome State Fault Refusal := formF1R .pop popHandler ra s

/-- CALL (42_stack_calls.md R144). -/
def execCall (ra : Byte) (s : State) : Host.Outcome State Fault Refusal := formF1R .call callHandler ra s

/-- RET (42_stack_calls.md R145). -/
def execRet (s : State) : Host.Outcome State Fault Refusal := formF0 .ret retHandler s

end Sys2Proof.Machine
end

