-- ==== Sys2Proof/Machine/Cycle.lean ====
section
/-! DEFINITION. The parts of one cycle of 40_execution_engine.md R100 that stand around `exec`. -/

namespace Sys2Proof.Machine

/-- Why no cycle runs, on a core that has stopped (40_execution_engine.md R101, 10_state.md R35; log 6). -/
def stopReason (s : State) : Option Fault :=
  match s.halted, s.fault with
  | true, _ => some .halted
  | false, some r => some (.fatal r)
  | false, none => none

/-- Fetch, decode and dispatch at the state the top of the cycle left (40_execution_engine.md R102 to R106). -/
def runCycle (s : State) : Host.Outcome State Fault Refusal :=
  match decodeAtPc s with
  | .ok i => exec i (fetch s)
  | .error (.unknownOpcode b) => .next (raise .unknownOpcode b s.pc (fetch s))

/-- The three bytes of an instruction stored at PC (20_memory.md R53). -/
def placeAtPc (b₀ b₁ b₂ : Byte) (s : State) : State :=
  ((s.writeByte s.pc b₀).writeByte (s.pc + 1) b₁).writeByte (s.pc + 2) b₂

/-- The core made to run, with no interrupt taken at the top of its next cycle: x[5] is cleared only if one would be. -/
def readyToFetch (s : State) : State :=
  { s with
    halted := false
    fault := none
    regs := if (pendingLine (timerPoll (timeInput s) s)).isSome then s.regs.set IM 0 else s.regs }

end Sys2Proof.Machine
end

