-- ==== Sys2Proof/Machine/Step.lean ====
section
/-! DEFINITION. One step is one cycle of 40_execution_engine.md R100. -/

namespace Sys2Proof.Machine

/-- One cycle (40_execution_engine.md R100). On a core that has stopped no cycle runs, and the step says how the
core stopped (R101, R111; log 6). -/
def step (s : State) : Host.Outcome State Fault Refusal :=
  match stopReason s with
  | some f => .fault f
  | none => runCycle (topOfCycle s)

/-- `s` made to fetch, at its next step, the instruction whose bits are `w`: the core runs, no interrupt is taken at
the top of that cycle, and the three bytes stand at PC (log 10). -/
def State.withFetchWord (s : State) (nbits w : Nat) : State :=
  placeAtPc (tableByte nbits w 0) (tableByte nbits w 1) (tableByte nbits w 2) (readyToFetch s)

end Sys2Proof.Machine
end

