-- ==== Sys2Proof/Machine/Ports.lean ====
section
/-! DEFINITION. The host's ports of 00_scope.md R9 and 60_exceptions.md section 5: LOAD, RUN, OUT and TRACE. The TIME
port is `timeInput`. -/

namespace Sys2Proof.Machine

/-- The cells `k`, `k + 1`, … take the bytes of an image, in order (60_exceptions.md R230). -/
def loadFrom : Byte → List Byte → State → State
  | _, [], s => s
  | k, b :: image, s => loadFrom (k + 1) image (s.writeByte k b)

/-- LOAD, used only before RUN: an image over 256 bytes is rejected with memory unchanged
(60_exceptions.md R230; log 10). -/
def loadPort (image : List Byte) (s : State) : Host.Outcome State Fault Refusal :=
  if image.length ≤ Config.maxImage then .next (loadFrom 0 image s) else .refused .imageTooLong

/-- The run status the core reports (10_state.md R35). -/
inductive RunStatus where
  | running
  | halted
  | fault (r : FaultRecord)
  deriving DecidableEq, Repr

/-- The status of a state (10_state.md R35, 60_exceptions.md R205). -/
def runStatus (s : State) : RunStatus :=
  match s.halted, s.fault with
  | true, _ => .halted
  | false, some r => .fault r
  | false, none => .running

/-- Up to `n` cycles, none after the core has stopped (60_exceptions.md R231). -/
def runCycles : Nat → State → State
  | 0, s => s
  | n + 1, s =>
    match step s with
    | .next t => runCycles n t
    | .fault _ => s
    | .refused _ => s

/-- RUN, observed for `n` cycles: the status once the core has stopped, nothing while it still runs
(60_exceptions.md R231, 40_execution_engine.md R111; log 12). -/
def runPort (n : Nat) (s : State) : Option RunStatus :=
  match runStatus (runCycles n s) with
  | .running => none
  | status => some status

/-- The host's process exit code of a status: 0 for Halted, EXIT_FAULT for every fault (60_exceptions.md R205). -/
def exitCode : RunStatus → Option Nat
  | .running => none
  | .halted => some 0
  | .fault _ => some Config.exitFault

/-- What the host prints for a character code (45_data_plain.md R183): below 0x80 the one character with that code
(0x41 is `A`; ASCII, log 13), from 0x80 on the host's own text (log 11). -/
def charText (v : Byte) : String :=
  if v.toNat < 0x80 then String.singleton (Char.ofNat v.toNat) else Config.highCharText v

/-- What the host prints for an event (60_exceptions.md R232; log 11). -/
def hostText : OutEvent → String
  | .dec v => toString v.toNat ++ Config.lineEnd
  | .chr v => charText v ++ Config.praTerminator

/-- What TRACE reads (60_exceptions.md R233). -/
structure TraceSnapshot where
  pc : Byte
  cells : Vector Byte 3
  regs : Vector Byte 8
  deriving DecidableEq, Repr

/-- TRACE: PC, M[PC], M[PC+1], M[PC+2] and x[0..7]; it is a function of the state and changes nothing
(60_exceptions.md R233). -/
def tracePort (s : State) : TraceSnapshot where
  pc := s.pc
  cells := #v[s.readByte s.pc, s.readByte (s.pc + 1), s.readByte (s.pc + 2)]
  regs := s.regs

end Sys2Proof.Machine
end

