-- ==== Sys2Proof/Safety.lean ====
section
/-! DEFINITION. The terms claims are stated in: a running core, the machine's invariant, what an instruction leaves
unchanged, and a safe run. -/

namespace Sys2Proof.Machine

/-- The core runs: neither HALTED nor FAULT is set (10_state.md R35). -/
def Running (s : State) : Prop := s.halted = false ∧ s.fault = none

/-- What every step keeps: memory is in its canonical form, HALTED and FAULT are never both set (10_state.md R35), and
T_ref is a time already past (10_state.md R36). -/
structure Inv (s : State) : Prop where
  memWf : s.mem.wf = true
  oneStop : s.halted = true → s.fault = none
  tRefPast : s.tRef ≤ s.time

/-- Between `s` and `t`, registers outside `rs` and cells outside `cells` keep their values, and so do IR, FAULT,
T_ref and the model's own TIME fields. -/
structure FrameCore (rs : List Reg) (cells : List Byte) (s t : State) : Prop where
  regs : ∀ r, r ∉ rs → t.reg r = s.reg r
  mem : ∀ a, a ∉ cells → t.readByte a = s.readByte a
  ir : t.ir = s.ir
  fault : t.fault = s.fault
  tRef : t.tRef = s.tRef
  time : t.time = s.time
  polls : t.polls = s.polls

/-- As `FrameCore`, and FL, HALTED and OUTLOG are unchanged too. -/
structure Frame (rs : List Reg) (cells : List Byte) (s t : State) : Prop extends FrameCore rs cells s t where
  fl : t.fl = s.fl
  halted : t.halted = s.halted
  out : t.out = s.out

/-- A run of `n` cycles in which no fatal error is raised. -/
def SafeRun (n : Nat) (s : State) : Prop := ∀ k ≤ n, (runCycles k s).fault = none

end Sys2Proof.Machine
end

