-- ==== Sys2Proof/Certificates/Slice0/Obligations.lean ====
section
/-! DEFINITION. The statements of this model for the provers, from the numbered rules of spec/. A register operand is
written `regByte r` for a register r, so a statement about an instruction holds for every register it can name; the
operand bytes above 7 are those of `RegisterOperandAboveSevenRaisesInvalidRegister`. -/

open Sys2Proof Sys2Proof.Machine

/-! ### Encoding -/

/-- 30_encoding.md R74, R78, R83: words written out bit by bit from the opcode map decode to what they stand for. -/
def Obligations.DecodeReadsWordsOfTheOpcodeMap : Prop :=
  decode 0b10000010 0b00000000 0b00001100 = .ok (.ldi 0 12) ∧
  decode 0b10100001 0b00000110 0b00000011 = .ok (.sub 6 3) ∧
  decode 0b01000110 0b00000101 0b11111111 = .ok (.pop 5) ∧
  decode 0b01010110 0b00000010 0b00000000 = .ok (.jne 2) ∧
  decode 0b10000100 0b00000001 0b00000111 = .ok (.st 1 7) ∧
  decode 0b00010011 0b01010101 0b10101010 = .ok .iret ∧
  decode 0b10101000 0b00000000 0b00000001 = .error (.unknownOpcode 0xA8)

/-- 30_encoding.md R70, R74, R75, R78: decoding the bytes of an instruction, whatever follows them, gives it back. -/
def Obligations.DecodeInvertsEncode : Prop :=
  ∀ (i : Instr) (rest : List Byte), decodeBytes (encode i ++ rest) = .ok i

/-- 30_encoding.md R70, R75, R76: the bytes an instruction was decoded from begin with its encoding. -/
def Obligations.EncodeInvertsDecode : Prop :=
  ∀ (b₀ b₁ b₂ : Byte) (i : Instr), decode b₀ b₁ b₂ = .ok i → ∃ rest, [b₀, b₁, b₂] = encode i ++ rest

/-- 30_encoding.md R70: opcode byte, then 0, 1 or 2 operand bytes, bits 7:6 of the opcode saying how many. -/
def Obligations.InstructionLengthIsCountFieldPlusOne : Prop :=
  ∀ i : Instr, ∃ opcode operands, encode i = opcode :: operands ∧ operands.length ≤ 2 ∧
    (encode i).length = opcode.toNat / 64 + 1

/-- 30_encoding.md R77, R78, R80, R81: exactly the twenty bytes of the map decode, the rest are rejected by name; and
bit 4 is set for exactly the six instructions that write PC. -/
def Obligations.RegisteredOpcodesAreExactlyTheTable : Prop :=
  (∀ b op1 op2 : Byte, decode b op1 op2 = .error (.unknownOpcode b) ↔
    b ∉ ([0x00, 0x01, 0x11, 0x13, 0x45, 0x46, 0x47, 0x48, 0x50, 0x54, 0x55, 0x56, 0x82, 0x84,
      0xA0, 0xA1, 0xA2, 0xA3, 0xA4, 0xA7] : List Byte)) ∧
  (∀ (b op1 op2 : Byte) (i : Instr), decode b op1 op2 = .ok i →
    (b.getLsbD 4 = true ↔ i.opcode ∈ [Opcode.call, .ret, .jmp, .jeq, .jne, .iret]))

/-! ### The cycle -/

/-- 40_execution_engine.md R100, R102, R103, R106, R110: the step of a running core is `exec` of the instruction the
three bytes at PC decode to, at the state the poll and the interrupt check left, with IR written; and with no line
pending after the poll, PC and the registers are those the poll left. -/
def Obligations.StepRunsTheDecodedInstruction : Prop :=
  (∀ (s u : State) (i : Instr), Running s → u = topOfCycle s →
    decode (u.readByte u.pc) (u.readByte (u.pc + 1)) (u.readByte (u.pc + 2)) = .ok i →
    step s = exec i { u with ir := u.readByte u.pc }) ∧
  (∀ s : State, pendingLine (timerPoll (timeInput s) s) = none → topOfCycle s = timerPoll (timeInput s) s)

/-- 40_execution_engine.md R101, R111, R200 (log 6 for the form of the stop): a step answers a next state exactly while
the core runs; a halted core and a faulted core stop, each saying how. -/
def Obligations.StepAnswersExactlyWhileRunning : Prop :=
  (∀ s : State, (∃ t, step s = .next t) ↔ Running s) ∧
  (∀ s : State, s.halted = true → step s = .fault .halted) ∧
  (∀ (s : State) (r : FaultRecord), s.halted = false → s.fault = some r → step s = .fault (.fatal r))

/-- 30_encoding.md R81, 40_execution_engine.md R110, 60_exceptions.md R207: every instruction answers a next state from
every state, with every operand; a fatal error is a next state too (log 6). -/
def Obligations.EveryInstructionAnswersNext : Prop :=
  ∀ (i : Instr) (s : State), ∃ t, exec i s = .next t

/-- 60_exceptions.md R202, 40_execution_engine.md R104, R110, 60_exceptions.md R205: the cycle whose opcode byte has no
handler records UnknownOpcode, code 1, with the byte and its address, PC staying there; the exit code is non-zero and
the next step runs no cycle. The twenty bytes are the model's of log 1 (30_encoding.md R78), the exit code's form that
of log 11. -/
def Obligations.UnregisteredOpcodeRaisesUnknownOpcode : Prop :=
  faultCode .unknownOpcode = 1 ∧
  ∀ s u : State, Running s → u = topOfCycle s →
    u.readByte u.pc ∉ ([0x00, 0x01, 0x11, 0x13, 0x45, 0x46, 0x47, 0x48, 0x50, 0x54, 0x55, 0x56, 0x82, 0x84,
      0xA0, 0xA1, 0xA2, 0xA3, 0xA4, 0xA7] : List Byte) →
    ∃ t, step s = .next t ∧ t.fault = some ⟨.unknownOpcode, u.readByte u.pc, u.pc⟩ ∧ t.pc = u.pc ∧
      (∃ n, exitCode (runStatus t) = some n ∧ n ≠ 0) ∧ ∀ v, step t ≠ .next v

/-- 30_encoding.md R72: an opcode byte of 0xC0 to 0xFF, whose count field is 3, raises UnknownOpcode. -/
def Obligations.CountFieldThreeRaisesUnknownOpcode : Prop :=
  ∀ s u : State, Running s → u = topOfCycle s → (u.readByte u.pc).toNat / 64 = 3 →
    step s = .next { u with ir := u.readByte u.pc, fault := some ⟨.unknownOpcode, u.readByte u.pc, u.pc⟩ }

/-- 40_execution_engine.md R105, 60_exceptions.md R203: a register operand above 7 raises InvalidRegister with nothing
else changed, for every instruction, JEQ and JNE included; well-formed operands never raise it. -/
def Obligations.RegisterOperandAboveSevenRaisesInvalidRegister : Prop :=
  faultCode .invalidRegister = 4 ∧
  (∀ (i : Instr) (s : State) (b : Byte), b ∈ i.registerOperands → 7 < b.toNat →
    exec i s = .next { s with fault := some ⟨.invalidRegister, opcodeByte i.opcode, s.pc⟩ }) ∧
  (∀ (i : Instr) (s t : State) (r : FaultRecord), i.wellFormed = true → s.fault = none →
    exec i s = .next t → t.fault = some r → r.kind ≠ .invalidRegister)

/-- 40_execution_engine.md R110: a fault leaves PC at the opcode and everything but IR and FAULT as the interrupt check
of the same cycle left it, and records the fetched opcode and its address. -/
def Obligations.FatalErrorsArePrecise : Prop :=
  ∀ (s u t : State) (r : FaultRecord), Running s → u = topOfCycle s → step s = .next t → t.fault = some r →
    t = { u with ir := u.readByte u.pc, fault := some r } ∧ r.opcode = u.readByte u.pc ∧ r.addr = u.pc

/-! ### ALU -/

/-- 41_alu.md R121: ADD. -/
def Obligations.AddWritesTheSumModulo256 : Prop :=
  ∀ (s : State) (a b : Reg), decode 0xA0 (regByte a) (regByte b) = .ok (.add (regByte a) (regByte b)) ∧
    ∃ t, exec (.add (regByte a) (regByte b)) s = .next t ∧
      (t.reg a).toNat = ((s.reg a).toNat + (s.reg b).toNat) % 256 ∧ t.pc = s.pc + 3 ∧ Frame [a] [] s t

/-- 41_alu.md R122: SUB. -/
def Obligations.SubWritesTheDifferenceModulo256 : Prop :=
  ∀ (s : State) (a b : Reg), decode 0xA1 (regByte a) (regByte b) = .ok (.sub (regByte a) (regByte b)) ∧
    ∃ t, exec (.sub (regByte a) (regByte b)) s = .next t ∧
      ((t.reg a).toNat : Int) = ((s.reg a).toNat - (s.reg b).toNat : Int) % 256 ∧ t.pc = s.pc + 3 ∧ Frame [a] [] s t

/-- 41_alu.md R123: MUL. -/
def Obligations.MulWritesTheProductModulo256 : Prop :=
  ∀ (s : State) (a b : Reg), decode 0xA2 (regByte a) (regByte b) = .ok (.mul (regByte a) (regByte b)) ∧
    ∃ t, exec (.mul (regByte a) (regByte b)) s = .next t ∧
      (t.reg a).toNat = ((s.reg a).toNat * (s.reg b).toNat) % 256 ∧ t.pc = s.pc + 3 ∧ Frame [a] [] s t

/-- 41_alu.md R124: DIV, quotient for a divisor other than 0, DivisionByZero with nothing written for 0. -/
def Obligations.DivWritesTheQuotientOrFaults : Prop :=
  ∀ (s : State) (a b : Reg), decode 0xA3 (regByte a) (regByte b) = .ok (.div (regByte a) (regByte b)) ∧
    (s.reg b ≠ 0 → ∃ t, exec (.div (regByte a) (regByte b)) s = .next t ∧
      (t.reg a).toNat = (s.reg a).toNat / (s.reg b).toNat ∧ t.pc = s.pc + 3 ∧ Frame [a] [] s t) ∧
    (s.reg b = 0 → exec (.div (regByte a) (regByte b)) s =
      .next { s with fault := some ⟨.divisionByZero, 0xA3, s.pc⟩ })

/-- 41_alu.md R125: MOD, remainder for a divisor other than 0, DivisionByZero with nothing written for 0. -/
def Obligations.ModWritesTheRemainderOrFaults : Prop :=
  ∀ (s : State) (a b : Reg), decode 0xA4 (regByte a) (regByte b) = .ok (.mod (regByte a) (regByte b)) ∧
    (s.reg b ≠ 0 → ∃ t, exec (.mod (regByte a) (regByte b)) s = .next t ∧
      (t.reg a).toNat = (s.reg a).toNat % (s.reg b).toNat ∧ t.pc = s.pc + 3 ∧ Frame [a] [] s t) ∧
    (s.reg b = 0 → exec (.mod (regByte a) (regByte b)) s =
      .next { s with fault := some ⟨.divisionByZero, 0xA4, s.pc⟩ })

/-- 41_alu.md R126, 10_state.md R26: CMP sets exactly one of E, G, L by the unsigned order, keeps bits 3 to 7, and
writes no register. -/
def Obligations.CmpSetsExactlyOneOfEqualGreaterLess : Prop :=
  ∀ (s : State) (a b : Reg), decode 0xA7 (regByte a) (regByte b) = .ok (.cmp (regByte a) (regByte b)) ∧
    ∃ t, exec (.cmp (regByte a) (regByte b)) s = .next t ∧
      (t.fl.getLsbD 0 = true ↔ (s.reg a).toNat = (s.reg b).toNat) ∧
      (t.fl.getLsbD 1 = true ↔ (s.reg b).toNat < (s.reg a).toNat) ∧
      (t.fl.getLsbD 2 = true ↔ (s.reg a).toNat < (s.reg b).toNat) ∧
      (∀ k, 3 ≤ k → t.fl.getLsbD k = s.fl.getLsbD k) ∧
      t.pc = s.pc + 3 ∧ FrameCore [] [] s t ∧ t.halted = s.halted ∧ t.out = s.out

/-- 60_exceptions.md R206: the ALU handler dispatched with an opcode that is none of its six raises
UnsupportedAluOperation, code 2, and no instruction ever raises it (41_alu.md R120). The six bytes are the model's of
log 1 (30_encoding.md R78). -/
def Obligations.UnsupportedAluOperationIsTheAluLastCase : Prop :=
  faultCode .unsupportedAluOperation = 2 ∧
  (∀ (ir : Byte) (a b : Reg) (s : State), ir ∉ ([0xA0, 0xA1, 0xA2, 0xA3, 0xA4, 0xA7] : List Byte) →
    alu ir a b s = .error .unsupportedAluOperation) ∧
  (∀ (i : Instr) (s t : State) (r : FaultRecord), s.fault = none → exec i s = .next t → t.fault = some r →
    r.kind ≠ .unsupportedAluOperation)

/-! ### Stack and calls -/

/-- 42_stack_calls.md R140, R141: the primitives, with the wrap of x[7] modulo 256. -/
def Obligations.PushAndPopMoveTheStackPointerModulo256 : Prop :=
  (∀ (v : Byte) (s : State), ((push v s).reg 7).toNat = ((s.reg 7).toNat + 255) % 256 ∧
    (push v s).readByte ((push v s).reg 7) = v ∧ (push v s).pc = s.pc ∧
    Frame [7] [(push v s).reg 7] s (push v s)) ∧
  (∀ s : State, (pop s).1 = s.readByte (s.reg 7) ∧ (((pop s).2).reg 7).toNat = ((s.reg 7).toNat + 1) % 256 ∧
    (pop s).2.pc = s.pc ∧ Frame [7] [] s (pop s).2)

/-- 42_stack_calls.md R142: PUSH; PUSH R7 stores the decremented stack pointer. -/
def Obligations.PushStoresTheRegisterReadAfterTheDecrement : Prop :=
  ∀ (s : State) (a : Reg), decode 0x45 (regByte a) 0 = .ok (.push (regByte a)) ∧
    ∃ t, exec (.push (regByte a)) s = .next t ∧ t.reg 7 = s.reg 7 - 1 ∧
      t.readByte (s.reg 7 - 1) = (if a = 7 then s.reg 7 - 1 else s.reg a) ∧
      t.pc = s.pc + 2 ∧ Frame [7] [s.reg 7 - 1] s t

/-- 42_stack_calls.md R143: POP; POP R7 leaves the popped byte plus 1; and PUSH r then POP r' moves r to r' and
restores x[7], for r and r' other than R7. -/
def Obligations.PopLoadsTheRegisterBeforeTheIncrement : Prop :=
  (∀ (s : State) (a : Reg), decode 0x46 (regByte a) 0 = .ok (.pop (regByte a)) ∧
    ∃ t, exec (.pop (regByte a)) s = .next t ∧
      (a ≠ 7 → t.reg a = s.readByte (s.reg 7) ∧ t.reg 7 = s.reg 7 + 1) ∧
      (a = 7 → t.reg 7 = s.readByte (s.reg 7) + 1) ∧
      t.pc = s.pc + 2 ∧ Frame [a, 7] [] s t) ∧
  (∀ (s t : State) (a b : Reg), a ≠ 7 → b ≠ 7 → exec (.push (regByte a)) s = .next t →
    ∃ u, exec (.pop (regByte b)) t = .next u ∧ u.reg b = s.reg a ∧ u.reg 7 = s.reg 7)

/-- 42_stack_calls.md R144: CALL; the target is read after the push, so CALL R7 goes to the cell of the return
address. -/
def Obligations.CallPushesTheReturnAddressAndJumps : Prop :=
  ∀ (s : State) (a : Reg), decode 0x50 (regByte a) 0 = .ok (.call (regByte a)) ∧
    ∃ t, exec (.call (regByte a)) s = .next t ∧ t.reg 7 = s.reg 7 - 1 ∧
      t.readByte (s.reg 7 - 1) = s.pc + 2 ∧ t.pc = (if a = 7 then s.reg 7 - 1 else s.reg a) ∧
      Frame [7] [s.reg 7 - 1] s t

/-- 42_stack_calls.md R145: RET; and from a state that has x[7] and the cell it addresses as CALL left them, RET goes
to the instruction after the CALL. -/
def Obligations.RetPopsPcAndReturnsAfterTheCall : Prop :=
  decode 0x11 0 0 = .ok .ret ∧
  (∀ s : State, ∃ t, exec .ret s = .next t ∧ t.pc = s.readByte (s.reg 7) ∧ t.reg 7 = s.reg 7 + 1 ∧
    Frame [7] [] s t) ∧
  (∀ (s t u : State) (a : Reg), exec (.call (regByte a)) s = .next t → u.reg 7 = t.reg 7 →
    u.readByte (u.reg 7) = t.readByte (t.reg 7) →
    ∃ v, exec .ret u = .next v ∧ v.pc = s.pc + 2 ∧ v.reg 7 = s.reg 7)

/-! ### Branches -/

/-- 43_branch.md R160: JMP. -/
def Obligations.JmpGoesToTheRegister : Prop :=
  ∀ (s : State) (a : Reg), decode 0x54 (regByte a) 0 = .ok (.jmp (regByte a)) ∧
    ∃ t, exec (.jmp (regByte a)) s = .next t ∧ t.pc = s.reg a ∧ Frame [] [] s t

/-- 43_branch.md R161, R162: JEQ and JNE look at FL bit 0 alone and write PC on both paths. -/
def Obligations.ConditionalBranchesTestOnlyTheEqualBit : Prop :=
  ∀ (s : State) (a : Reg),
    decode 0x55 (regByte a) 0 = .ok (.jeq (regByte a)) ∧ decode 0x56 (regByte a) 0 = .ok (.jne (regByte a)) ∧
    (∃ t, exec (.jeq (regByte a)) s = .next t ∧ (s.fl.getLsbD 0 = true → t.pc = s.reg a) ∧
      (s.fl.getLsbD 0 = false → t.pc = s.pc + 2) ∧ Frame [] [] s t) ∧
    (∃ t, exec (.jne (regByte a)) s = .next t ∧ (s.fl.getLsbD 0 = false → t.pc = s.reg a) ∧
      (s.fl.getLsbD 0 = true → t.pc = s.pc + 2) ∧ Frame [] [] s t)

/-! ### Interrupts and the timer -/

/-- 44_interrupt_return.md R170: IRET pops x[6] down to x[0], FL and PC, writes IM_REENABLE to the mask, and leaves
memory alone. That IM_REENABLE is not 0 is the spec's own reading of its OPEN parameter (D6), in the model's form of
log 4. -/
def Obligations.IretPopsNineBytesAndReenables : Prop :=
  decode 0x13 0 0 = .ok .iret ∧ Config.imReenable ≠ 0 ∧
  ∀ s : State, ∃ t, exec .iret s = .next t ∧
    t.reg 6 = s.readByte (s.reg 7) ∧ t.reg 5 = Config.imReenable ∧ t.reg 4 = s.readByte (s.reg 7 + 2) ∧
    t.reg 3 = s.readByte (s.reg 7 + 3) ∧ t.reg 2 = s.readByte (s.reg 7 + 4) ∧
    t.reg 1 = s.readByte (s.reg 7 + 5) ∧ t.reg 0 = s.readByte (s.reg 7 + 6) ∧
    t.fl = s.readByte (s.reg 7 + 7) ∧ t.pc = s.readByte (s.reg 7 + 8) ∧ t.reg 7 = s.reg 7 + 9 ∧
    FrameCore [0, 1, 2, 3, 4, 5, 6, 7] [] s t ∧ t.halted = s.halted ∧ t.out = s.out

/-- 60_exceptions.md R215, R216: the frame of interrupt entry, the cleared mask and status, the vector read after the
pushes from the one cell 0xF8 whatever the line, and what entry leaves alone; the cycle that takes it then fetches at
the new PC. -/
def Obligations.InterruptEntryBuildsTheFrameAndVectors : Prop :=
  (∀ (line : Reg) (s t : State), t = interruptEntry line s →
    t.readByte (s.reg 7 - 1) = s.pc ∧ t.readByte (s.reg 7 - 2) = s.fl ∧ t.readByte (s.reg 7 - 3) = s.reg 0 ∧
    t.readByte (s.reg 7 - 4) = s.reg 1 ∧ t.readByte (s.reg 7 - 5) = s.reg 2 ∧
    t.readByte (s.reg 7 - 6) = s.reg 3 ∧ t.readByte (s.reg 7 - 7) = s.reg 4 ∧
    t.readByte (s.reg 7 - 8) = 0 ∧ t.readByte (s.reg 7 - 9) = 0 ∧
    t.reg 5 = 0 ∧ t.reg 6 = 0 ∧ t.reg 7 = s.reg 7 - 9 ∧ t.pc = t.readByte 0xF8 ∧
    ((∀ k : Nat, 1 ≤ k → k ≤ 9 → s.reg 7 - BitVec.ofNat 8 k ≠ 0xF8) → t.pc = s.readByte 0xF8) ∧
    Frame [5, 6, 7] [s.reg 7 - 1, s.reg 7 - 2, s.reg 7 - 3, s.reg 7 - 4, s.reg 7 - 5, s.reg 7 - 6, s.reg 7 - 7,
      s.reg 7 - 8, s.reg 7 - 9] s t) ∧
  ∀ (line : Reg) (v t : State) (i : Instr), Running v → topOfCycle v = t →
    t = interruptEntry line (timerPoll (timeInput v) v) →
    decode (t.readByte t.pc) (t.readByte (t.pc + 1)) (t.readByte (t.pc + 2)) = .ok i →
    step v = exec i { t with ir := t.readByte t.pc }

/-- 60_exceptions.md R213: the check comes after the poll; with no line both enabled and pending nothing happens;
otherwise the lowest such line is the one found, and its entry is made, once. -/
def Obligations.InterruptCheckTakesTheLowestPendingLine : Prop :=
  (∀ s : State, topOfCycle s = interruptCheck (timerPoll (timeInput s) s)) ∧
  (∀ s : State, s.reg 5 &&& s.reg 6 = 0 → pendingLine s = none ∧ interruptCheck s = s) ∧
  (∀ (s : State) (i : Reg), (s.reg 5 &&& s.reg 6).getLsbD i = true →
    (∀ j : Reg, j < i → (s.reg 5 &&& s.reg 6).getLsbD j = false) →
      pendingLine s = some i ∧ interruptCheck s = interruptEntry i s)

/-- 60_exceptions.md R210, R220, 70_reset_and_hazards.md R262: a line enabled and pending at the top of a cycle, or line
0 enabled at a tick, is taken in that cycle, before the fetch. -/
def Obligations.PendingInterruptIsTakenBeforeTheFetch : Prop :=
  ∀ s p : State, p = timerPoll (timeInput s) s →
    (s.reg 5 &&& s.reg 6 ≠ 0 ∨ (s.tRef + Config.timerPeriod ≤ timeInput s ∧ (s.reg 5).getLsbD 0 = true)) →
    ∃ line : Reg, (p.reg 5 &&& p.reg 6).getLsbD line = true ∧ topOfCycle s = interruptEntry line p

/-- 60_exceptions.md R219, R221: while the mask is 0 no interrupt is taken, so entry, which leaves mask and status 0,
is not followed by another until a program enables a line. -/
def Obligations.MaskZeroTakesNoInterrupt : Prop :=
  (∀ s : State, s.reg 5 = 0 → topOfCycle s = timerPoll (timeInput s) s) ∧
  (∀ (line : Reg) (s : State), interruptCheck (interruptEntry line s) = interruptEntry line s ∧
    topOfCycle (interruptEntry line s) = timerPoll (timeInput (interruptEntry line s)) (interruptEntry line s))

/-- 44_interrupt_return.md R171: IRET from a handler that left x[7] and the nine frame cells as entry left them restores
PC, FL, x[0..4] and x[7]; x[6] is 0 and x[5] is IM_REENABLE, the open constant of log 4, of which no value is used. -/
def Obligations.InterruptRoundTripRestoresTheContext : Prop :=
  ∀ (line : Reg) (s e u : State), e = interruptEntry line s → u.reg 7 = e.reg 7 →
    (∀ k : Nat, 1 ≤ k → k ≤ 9 →
      u.readByte (s.reg 7 - BitVec.ofNat 8 k) = e.readByte (s.reg 7 - BitVec.ofNat 8 k)) →
    ∃ t, exec .iret u = .next t ∧ t.pc = s.pc ∧ t.fl = s.fl ∧ (∀ r : Reg, r < 5 → t.reg r = s.reg r) ∧
      t.reg 7 = s.reg 7 ∧ t.reg 6 = 0 ∧ t.reg 5 = Config.imReenable

/-- 60_exceptions.md R210, R212: at a poll with TIME `now`, a tick sets bit 0 of x[6] and moves T_ref; otherwise neither
changes; nothing else of the hardware changes. -/
def Obligations.TimerPollSetsStatusBitZeroOnATick : Prop :=
  ∀ (now : Nat) (s t : State), t = timerPoll now s →
    (s.tRef + Config.timerPeriod ≤ now → t.reg 6 = s.reg 6 ||| 1 ∧ t.tRef = now) ∧
    (now < s.tRef + Config.timerPeriod → t.reg 6 = s.reg 6 ∧ t.tRef = s.tRef) ∧
    (∀ r : Reg, r ≠ 6 → t.reg r = s.reg r) ∧ t.pc = s.pc ∧ t.fl = s.fl ∧ t.mem = s.mem ∧ t.ir = s.ir ∧
    t.halted = s.halted ∧ t.fault = s.fault ∧ t.out = s.out

/-! ### Data movement, output, NOP, HLT -/

/-- 45_data_plain.md R180: LDI, with any immediate byte. -/
def Obligations.LdiLoadsTheImmediate : Prop :=
  ∀ (s : State) (a : Reg) (v : Byte), decode 0x82 (regByte a) v = .ok (.ldi (regByte a) v) ∧
    ∃ t, exec (.ldi (regByte a) v) s = .next t ∧ t.reg a = v ∧ t.pc = s.pc + 3 ∧ Frame [a] [] s t

/-- 45_data_plain.md R181: ST. -/
def Obligations.StStoresAtTheAddressInTheFirstRegister : Prop :=
  ∀ (s : State) (a b : Reg), decode 0x84 (regByte a) (regByte b) = .ok (.st (regByte a) (regByte b)) ∧
    ∃ t, exec (.st (regByte a) (regByte b)) s = .next t ∧ t.readByte (s.reg a) = s.reg b ∧ t.pc = s.pc + 3 ∧
      Frame [] [s.reg a] s t

/-- 45_data_plain.md R182, R183: PRN and PRA append one event to OUTLOG and change no other state but PC; the host
prints a Dec value in unsigned decimal and then a line end (log 11 for the texts the spec leaves to the host). -/
def Obligations.PrnAndPraAppendOneEvent : Prop :=
  (∀ (s : State) (a : Reg),
    decode 0x47 (regByte a) 0 = .ok (.prn (regByte a)) ∧ decode 0x48 (regByte a) 0 = .ok (.pra (regByte a)) ∧
    (∃ t, exec (.prn (regByte a)) s = .next t ∧ t.out = s.out ++ [.dec (s.reg a)] ∧ t.pc = s.pc + 2 ∧
      FrameCore [] [] s t ∧ t.fl = s.fl ∧ t.halted = s.halted) ∧
    (∃ t, exec (.pra (regByte a)) s = .next t ∧ t.out = s.out ++ [.chr (s.reg a)] ∧ t.pc = s.pc + 2 ∧
      FrameCore [] [] s t ∧ t.fl = s.fl ∧ t.halted = s.halted)) ∧
  ∀ v : Byte, hostText (.dec v) = toString v.toNat ++ Config.lineEnd

/-- 45_data_plain.md R184: NOP. -/
def Obligations.NopOnlyAdvancesPc : Prop :=
  decode 0x00 0 0 = .ok .nop ∧ ∀ s : State, exec .nop s = .next { s with pc := s.pc + 1 }

/-- 45_data_plain.md R185, 40_execution_engine.md R109: HLT sets HALTED, PC is advanced, the status is Halted with exit
code 0, and no later cycle runs. -/
def Obligations.HltStopsTheCoreForGood : Prop :=
  decode 0x01 0 0 = .ok .hlt ∧
  ∀ s : State, ∃ t, exec .hlt s = .next t ∧ t.halted = true ∧ t.pc = s.pc + 1 ∧ FrameCore [] [] s t ∧
    t.fl = s.fl ∧ t.out = s.out ∧ runStatus t = .halted ∧ exitCode (runStatus t) = some 0 ∧
    (∀ v, step t ≠ .next v) ∧ ∀ n, runCycles n t = t

/-! ### Whole-machine rules -/

/-- 10_state.md R23: the writers of each register are exactly these. -/
def Obligations.RegistersChangeOnlyByTheirWriters : Prop :=
  (∀ (i : Instr) (s t : State) (r : Reg), exec i s = .next t → t.reg r ≠ s.reg r →
    (∃ b, i ∈ [Instr.add (regByte r) b, .sub (regByte r) b, .mul (regByte r) b, .div (regByte r) b,
      .mod (regByte r) b, .ldi (regByte r) b, .pop (regByte r)]) ∨
    (r = 7 ∧ i.opcode ∈ [Opcode.pop, .push, .call, .ret]) ∨ i = .iret) ∧
  (∀ (now : Nat) (s : State) (r : Reg), r ≠ 6 → (timerPoll now s).reg r = s.reg r) ∧
  (∀ (line : Reg) (s : State) (r : Reg), r ∉ ([5, 6, 7] : List Reg) → (interruptEntry line s).reg r = s.reg r)

/-- 10_state.md R28: no instruction but CMP, IRET, JEQ and JNE reads or writes FL: run with another FL, it does the
same and leaves that FL as it was. The poll and interrupt entry do not write it either. -/
def Obligations.OtherInstructionsNeitherReadNorWriteFlags : Prop :=
  (∀ (i : Instr) (s t : State) (f : Byte), i.opcode ∉ [Opcode.cmp, .iret, .jeq, .jne] → exec i s = .next t →
    t.fl = s.fl ∧ exec i { s with fl := f } = .next { t with fl := f }) ∧
  ∀ s : State, (topOfCycle s).fl = s.fl

/-- 20_memory.md R52: an instruction changes a cell only where PUSH, CALL or ST stores to it. -/
def Obligations.MemoryChangesOnlyByStores : Prop :=
  ∀ (i : Instr) (s t : State) (a : Byte), exec i s = .next t → t.readByte a ≠ s.readByte a →
    (i.opcode ∈ [Opcode.push, .call] ∧ a = s.reg 7 - 1) ∨
    (∃ ra rb : Reg, i = .st (regByte ra) (regByte rb) ∧ a = s.reg ra)

/-- 10_state.md R37: OUTLOG is empty at reset, only PRN and PRA append to it, and nothing removes from it. -/
def Obligations.OutLogOnlyGrowsByPrnAndPra : Prop :=
  State.reset.out = [] ∧
  (∀ (i : Instr) (s t : State), exec i s = .next t → i.opcode ∉ [Opcode.prn, .pra] → t.out = s.out) ∧
  (∀ s t : State, step s = .next t → ∃ es : List OutEvent, t.out = s.out ++ es ∧ es.length ≤ 1)

/-- 10_state.md R34: HALTED is false at reset, HLT alone sets it, it stops the next cycle, and no step clears it. -/
def Obligations.HaltedIsSetByHltAlone : Prop :=
  State.reset.halted = false ∧
  (∀ (i : Instr) (s t : State), exec i s = .next t → (i = .hlt → t.halted = true) ∧
    (i ≠ .hlt → t.halted = s.halted)) ∧
  (∀ s : State, (topOfCycle s).halted = s.halted) ∧
  (∀ s : State, s.halted = true → step s = .fault .halted ∧ ∀ n, (runCycles n s).halted = true)

/-- 10_state.md R33: no step depends on what IR held before it, since the fetch writes IR before the cycle reads it. -/
def Obligations.StepDoesNotDependOnTheOldInstructionRegister : Prop :=
  ∀ (s : State) (b : Byte), step { s with ir := b } = step s

/-- 10_state.md R36, 60_exceptions.md R212: no instruction reads or writes the timer reference or TIME. -/
def Obligations.InstructionsNeitherReadNorWriteTheTimer : Prop :=
  ∀ (i : Instr) (s t : State) (ref now n : Nat), exec i s = .next t →
    t.tRef = s.tRef ∧ t.time = s.time ∧ t.polls = s.polls ∧
    exec i { s with tRef := ref, time := now, polls := n } = .next { t with tRef := ref, time := now, polls := n }

/-- 10_state.md R32, R35, R36 (log 9 for memory's form, log 5 for TIME): every step keeps the invariant: memory
canonical, HALTED and FAULT never both set, T_ref a time already past. -/
def Obligations.EveryStepKeepsTheStateInvariant : Prop :=
  ∀ s t : State, Inv s → step s = .next t → Inv t

/-- 70_reset_and_hazards.md R250: the state after reset meets the invariant, and the core runs. -/
def Obligations.ResetMeetsTheStateInvariant : Prop := Inv State.reset ∧ Running State.reset

/-- 10_state.md R22: every register is 0 at reset except R7, which is 0xF4. -/
def Obligations.ResetClearsRegistersExceptTheStackPointer : Prop :=
  ∀ r : Reg, State.reset.reg r = if r = 7 then 0xF4 else 0

/-- 70_reset_and_hazards.md R250: the rest of the state after reset; of FL only FL_RESET[7:3] ≠ 0 is known, and the
timer reference is the TIME input's value (log 5). -/
def Obligations.ResetLeavesTheSpecifiedState : Prop :=
  State.reset.pc = 0 ∧ (∀ a : Byte, State.reset.readByte a = 0) ∧ State.reset.halted = false ∧
  State.reset.fault = none ∧ State.reset.out = [] ∧ State.reset.tRef = State.reset.time ∧
  State.reset.fl.extractLsb' 3 5 ≠ 0 ∧ (topOfCycle State.reset).pc = 0

/-- 20_memory.md R50 (log 9, the model's choice of form): memories in canonical form that read the same everywhere are
the same data. -/
def Obligations.CanonicalMemoriesAreEqualWhenTheyReadAlike : Prop :=
  ∀ m m' : Memory, m.wf = true → m'.wf = true → (∀ a : Byte, m.read a = m'.read a) → m = m'

/-! ### Ports -/

/-- 60_exceptions.md R230: LOAD stores the image from cell 0 on and changes nothing else; an image over 256 bytes is
rejected. -/
def Obligations.LoadPortStoresTheImageFromZero : Prop :=
  (∀ (image : List Byte) (s : State), image.length ≤ 256 → ∃ t, loadPort image s = .next t ∧
    (∀ a : Byte, t.readByte a = image.getD a.toNat (s.readByte a)) ∧ t = { s with mem := t.mem }) ∧
  (∀ (image : List Byte) (s : State), 256 < image.length → loadPort image s = .refused .imageTooLong)

/-- 60_exceptions.md R231, 40_execution_engine.md R111 (log 12): RUN on a core that has stopped runs no cycle and
reports the same status again; a run that goes on is a run of its steps. -/
def Obligations.RunOnAStoppedCoreRunsNoCycle : Prop :=
  (∀ (n : Nat) (s : State), ¬ Running s → runCycles n s = s ∧ runPort n s = some (runStatus s)) ∧
  (∀ (m n : Nat) (s : State), runCycles (m + n) s = runCycles n (runCycles m s)) ∧
  (∀ s t : State, step s = .next t → runCycles 1 s = t)

/-- 40_execution_engine.md R100 (log 10, the model's own loading of one instruction): the next step of
`s.withFetchWord nbits w` runs the instruction `decodeTableWord` reads from the same word, at the same PC. -/
def Obligations.WithFetchWordRunsTheTableWord : Prop :=
  ∀ (s : State) (nbits w : Nat) (i : Instr), decodeTableWord nbits w = some i →
    ∃ u, step (s.withFetchWord nbits w) = exec i u ∧ u.pc = s.pc ∧
      u.ir = opcodeByte i.opcode ∧ (∀ r : Reg, r ≠ 5 → r ≠ 6 → u.reg r = s.reg r)
end

