-- ==== Sys2Proof/Laws/Decode.lean ====
section
/-! SUPPORT. The small lemmas of the opcode map: each byte is one opcode's, and an instruction is its opcode and its
operand bytes. -/

namespace Sys2Proof

@[simp] theorem opcodeOf_opcodeByte (o : Opcode) : opcodeOf (opcodeByte o) = some o := by
  cases o <;> rfl

theorem opcodeByte_of_opcodeOf {b : Byte} {o : Opcode} (h : opcodeOf b = some o) : opcodeByte o = b := by
  simpa using List.find?_some h

theorem opcodeOf_eq_some {b : Byte} {o : Opcode} : opcodeOf b = some o ↔ opcodeByte o = b :=
  ⟨opcodeByte_of_opcodeOf, fun h => h ▸ opcodeOf_opcodeByte o⟩

theorem opcodeOf_eq_none {b : Byte} : opcodeOf b = none ↔ ∀ o, opcodeByte o ≠ b := by
  rw [Option.eq_none_iff_forall_not_mem]
  exact forall_congr' fun o => not_congr opcodeOf_eq_some

@[simp] theorem opcode_instrOf (op1 op2 : Byte) (o : Opcode) : (instrOf op1 op2 o).opcode = o := by
  cases o <;> rfl

/-- What a successful decode says. -/
theorem decode_eq_ok {b op1 op2 : Byte} {i : Instr} :
    decode b op1 op2 = .ok i ↔ ∃ o, opcodeByte o = b ∧ i = instrOf op1 op2 o := by
  unfold decode
  cases h : opcodeOf b with
  | none => simpa using fun o ho => absurd ho (opcodeOf_eq_none.mp h o)
  | some o =>
    have hb := opcodeByte_of_opcodeOf h
    constructor
    · rintro ⟨⟩
      exact ⟨o, hb, rfl⟩
    · rintro ⟨o', ho', rfl⟩
      have : o' = o := by simpa [ho', h] using (opcodeOf_opcodeByte o').symm
      rw [this]

/-- What a rejected decode says: the byte is registered for no instruction. -/
theorem decode_eq_error {b op1 op2 : Byte} {e : DecodeError} :
    decode b op1 op2 = .error e ↔ e = .unknownOpcode b ∧ ∀ o, opcodeByte o ≠ b := by
  unfold decode
  cases h : opcodeOf b with
  | none => simp [opcodeOf_eq_none.mp h, eq_comm]
  | some o => simpa using fun _ => ⟨o, opcodeByte_of_opcodeOf h⟩

theorem opcode_of_decode {b op1 op2 : Byte} {i : Instr} (h : decode b op1 op2 = .ok i) :
    opcodeByte i.opcode = b := by
  obtain ⟨o, rfl, rfl⟩ := decode_eq_ok.mp h
  simp

/-! ### The length and the PC-mutation flag of each opcode byte (30_encoding.md R77, R78) -/

@[simp] theorem instrLength_nop : instrLength (opcodeByte .nop) = 1 := by decide
@[simp] theorem instrLength_hlt : instrLength (opcodeByte .hlt) = 1 := by decide
@[simp] theorem instrLength_ret : instrLength (opcodeByte .ret) = 1 := by decide
@[simp] theorem instrLength_iret : instrLength (opcodeByte .iret) = 1 := by decide
@[simp] theorem instrLength_push : instrLength (opcodeByte .push) = 2 := by decide
@[simp] theorem instrLength_pop : instrLength (opcodeByte .pop) = 2 := by decide
@[simp] theorem instrLength_prn : instrLength (opcodeByte .prn) = 2 := by decide
@[simp] theorem instrLength_pra : instrLength (opcodeByte .pra) = 2 := by decide
@[simp] theorem instrLength_call : instrLength (opcodeByte .call) = 2 := by decide
@[simp] theorem instrLength_jmp : instrLength (opcodeByte .jmp) = 2 := by decide
@[simp] theorem instrLength_jeq : instrLength (opcodeByte .jeq) = 2 := by decide
@[simp] theorem instrLength_jne : instrLength (opcodeByte .jne) = 2 := by decide
@[simp] theorem instrLength_ldi : instrLength (opcodeByte .ldi) = 3 := by decide
@[simp] theorem instrLength_st : instrLength (opcodeByte .st) = 3 := by decide
@[simp] theorem instrLength_add : instrLength (opcodeByte .add) = 3 := by decide
@[simp] theorem instrLength_sub : instrLength (opcodeByte .sub) = 3 := by decide
@[simp] theorem instrLength_mul : instrLength (opcodeByte .mul) = 3 := by decide
@[simp] theorem instrLength_div : instrLength (opcodeByte .div) = 3 := by decide
@[simp] theorem instrLength_mod : instrLength (opcodeByte .mod) = 3 := by decide
@[simp] theorem instrLength_cmp : instrLength (opcodeByte .cmp) = 3 := by decide

@[simp] theorem pcMutation_nop : pcMutation (opcodeByte .nop) = false := by decide
@[simp] theorem pcMutation_hlt : pcMutation (opcodeByte .hlt) = false := by decide
@[simp] theorem pcMutation_ret : pcMutation (opcodeByte .ret) = true := by decide
@[simp] theorem pcMutation_iret : pcMutation (opcodeByte .iret) = true := by decide
@[simp] theorem pcMutation_push : pcMutation (opcodeByte .push) = false := by decide
@[simp] theorem pcMutation_pop : pcMutation (opcodeByte .pop) = false := by decide
@[simp] theorem pcMutation_prn : pcMutation (opcodeByte .prn) = false := by decide
@[simp] theorem pcMutation_pra : pcMutation (opcodeByte .pra) = false := by decide
@[simp] theorem pcMutation_call : pcMutation (opcodeByte .call) = true := by decide
@[simp] theorem pcMutation_jmp : pcMutation (opcodeByte .jmp) = true := by decide
@[simp] theorem pcMutation_jeq : pcMutation (opcodeByte .jeq) = true := by decide
@[simp] theorem pcMutation_jne : pcMutation (opcodeByte .jne) = true := by decide
@[simp] theorem pcMutation_ldi : pcMutation (opcodeByte .ldi) = false := by decide
@[simp] theorem pcMutation_st : pcMutation (opcodeByte .st) = false := by decide
@[simp] theorem pcMutation_add : pcMutation (opcodeByte .add) = false := by decide
@[simp] theorem pcMutation_sub : pcMutation (opcodeByte .sub) = false := by decide
@[simp] theorem pcMutation_mul : pcMutation (opcodeByte .mul) = false := by decide
@[simp] theorem pcMutation_div : pcMutation (opcodeByte .div) = false := by decide
@[simp] theorem pcMutation_mod : pcMutation (opcodeByte .mod) = false := by decide
@[simp] theorem pcMutation_cmp : pcMutation (opcodeByte .cmp) = false := by decide

theorem regByte_toNat (r : Reg) : (regByte r).toNat = r.val := by
  simp only [regByte, BitVec.toNat_ofNat]
  omega

theorem regByte_inj {r q : Reg} : regByte r = regByte q ↔ r = q :=
  ⟨fun h => Fin.ext (by rw [← regByte_toNat, ← regByte_toNat, h]), fun h => h ▸ rfl⟩

/-- A byte in 0..7 is the byte of a register. -/
theorem exists_regByte {b : Byte} (h : b.toNat < 8) : ∃ r, b = regByte r :=
  ⟨⟨b.toNat, h⟩, BitVec.eq_of_toNat_eq (by rw [regByte_toNat])⟩

end Sys2Proof
end

