-- ==== Sys2Proof/Laws/Memory.lean ====
section
/-! SUPPORT. The laws of memory: a read after a write, and that a write keeps the canonical form. -/

namespace Sys2Proof.Machine

@[simp] theorem Memory.read_nil (a : Byte) : Memory.read [] a = Memory.unlisted := rfl

@[simp] theorem Memory.read_cons (k : Nat) (v : Byte) (m : Memory) (a : Byte) :
    Memory.read ((k, v) :: m) a = if k = a.toNat then v else m.read a := rfl

/-- Address k is listed nowhere in m. -/
def Memory.free (m : Memory) (k : Nat) : Prop := ∀ c ∈ m, c.1 ≠ k

theorem Memory.erase_free (m : Memory) (k : Nat) : (m.erase k).free k := by
  induction m with
  | nil => simp [Memory.erase, Memory.free]
  | cons c m ih =>
    obtain ⟨j, v⟩ := c
    by_cases h : j = k
    · simpa [Memory.erase, h] using ih
    · simpa [Memory.erase, h, Memory.free] using ih

theorem Memory.read_erase (m : Memory) (k : Nat) (a : Byte) :
    (m.erase k).read a = if a.toNat = k then Memory.unlisted else m.read a := by
  induction m with
  | nil => simp [Memory.erase]
  | cons c m ih =>
    obtain ⟨j, v⟩ := c
    by_cases hj : j = k
    · subst hj
      by_cases ha : a.toNat = j
      · simpa [Memory.erase, ha] using ih
      · have : ¬ j = a.toNat := fun h => ha h.symm
        simpa [Memory.erase, ha, this] using ih
    · by_cases ha : a.toNat = k
      · have : ¬ j = a.toNat := fun h => hj (h.trans ha)
        simpa [Memory.erase, hj, ha, this] using ih
      · simp [Memory.erase, hj, ha, ih]

theorem Memory.read_insert (m : Memory) (k : Nat) (v a : Byte) (h : m.free k) :
    (m.insert k v).read a = if a.toNat = k then v else m.read a := by
  induction m with
  | nil => simp [Memory.insert, eq_comm]
  | cons c m ih =>
    obtain ⟨j, w⟩ := c
    have hj : j ≠ k := h (j, w) (by simp)
    have hm : Memory.free m k := fun c hc => h c (by simp [hc])
    by_cases hk : k < j
    · simp [Memory.insert, hk, eq_comm]
    · by_cases ha : a.toNat = k
      · have : ¬ j = a.toNat := fun e => hj (e.trans ha)
        simp [Memory.insert, hk, ih hm, ha, hj]
      · simp [Memory.insert, hk, ih hm, ha]

/-- A read after a write: the written value at the written address, the old value elsewhere (20_memory.md R59). -/
theorem Memory.read_write (m : Memory) (a b v : Byte) :
    (m.write a v).read b = if b = a then v else m.read b := by
  have e : (b.toNat = a.toNat) ↔ (b = a) := BitVec.toNat_inj
  by_cases hv : v = Memory.unlisted
  · simp [Memory.write, hv, Memory.read_erase, e]
  · simp only [Memory.write, hv, if_false, Memory.read_insert _ _ _ _ (Memory.erase_free m _), Memory.read_erase, e]
    split <;> rfl

/-! ### The canonical form -/

theorem Memory.wfFrom_cons (lo k : Nat) (v : Byte) (m : Memory) :
    Memory.wfFrom lo ((k, v) :: m) = true ↔
      lo ≤ k ∧ k < 256 ∧ v ≠ Memory.unlisted ∧ Memory.wfFrom (k + 1) m = true := by
  simp [Memory.wfFrom, and_assoc]

theorem Memory.wfFrom_mono {lo lo' : Nat} {m : Memory} (h : Memory.wfFrom lo m = true) (hl : lo' ≤ lo) :
    Memory.wfFrom lo' m = true := by
  cases m with
  | nil => rfl
  | cons c m =>
    obtain ⟨k, v⟩ := c
    rw [Memory.wfFrom_cons] at h ⊢
    exact ⟨le_trans hl h.1, h.2⟩

theorem Memory.wfFrom_erase {lo : Nat} {m : Memory} (k : Nat) (h : Memory.wfFrom lo m = true) :
    Memory.wfFrom lo (m.erase k) = true := by
  induction m generalizing lo with
  | nil => rfl
  | cons c m ih =>
    obtain ⟨j, v⟩ := c
    rw [Memory.wfFrom_cons] at h
    by_cases hj : j = k
    · simpa [Memory.erase, hj] using Memory.wfFrom_mono (ih h.2.2.2) (by omega)
    · simpa [Memory.erase, hj, Memory.wfFrom_cons] using ⟨h.1, h.2.1, h.2.2.1, ih h.2.2.2⟩

theorem Memory.wfFrom_insert {lo k : Nat} {v : Byte} {m : Memory} (h : Memory.wfFrom lo m = true) (hf : m.free k)
    (hlo : lo ≤ k) (hk : k < 256) (hv : v ≠ Memory.unlisted) : Memory.wfFrom lo (m.insert k v) = true := by
  induction m generalizing lo with
  | nil => simp [Memory.insert, Memory.wfFrom, hlo, hk, hv]
  | cons c m ih =>
    obtain ⟨j, w⟩ := c
    rw [Memory.wfFrom_cons] at h
    have hj : j ≠ k := hf (j, w) (by simp)
    by_cases hkj : k < j
    · simp only [Memory.insert, hkj, if_true, Memory.wfFrom_cons]
      exact ⟨hlo, hk, hv, hkj, h.2⟩
    · simp only [Memory.insert, hkj, if_false, Memory.wfFrom_cons]
      exact ⟨h.1, h.2.1, h.2.2.1, ih h.2.2.2 (fun c hc => hf c (by simp [hc])) (by omega)⟩

/-- Every write keeps the canonical form. -/
theorem Memory.wf_write {m : Memory} (h : m.wf = true) (a v : Byte) : (m.write a v).wf = true := by
  by_cases hv : v = Memory.unlisted
  · simpa [Memory.write, hv, Memory.wf] using Memory.wfFrom_erase a.toNat h
  · simpa [Memory.write, hv, Memory.wf] using
      Memory.wfFrom_insert (Memory.wfFrom_erase a.toNat h) (Memory.erase_free m _) (Nat.zero_le _) a.isLt hv

end Sys2Proof.Machine
end

