-- ==== Sys2Proof/Laws/State.lean ====
section
/-! SUPPORT. One lemma per field of State per update, so that no later proof unfolds a record update. -/

namespace Sys2Proof.Machine

variable (s : State)

/-! ### setReg -/

@[simp] theorem setReg_pc (r : Reg) (v : Byte) : (s.setReg r v).pc = s.pc := rfl
@[simp] theorem setReg_fl (r : Reg) (v : Byte) : (s.setReg r v).fl = s.fl := rfl
@[simp] theorem setReg_mem (r : Reg) (v : Byte) : (s.setReg r v).mem = s.mem := rfl
@[simp] theorem setReg_ir (r : Reg) (v : Byte) : (s.setReg r v).ir = s.ir := rfl
@[simp] theorem setReg_halted (r : Reg) (v : Byte) : (s.setReg r v).halted = s.halted := rfl
@[simp] theorem setReg_fault (r : Reg) (v : Byte) : (s.setReg r v).fault = s.fault := rfl
@[simp] theorem setReg_tRef (r : Reg) (v : Byte) : (s.setReg r v).tRef = s.tRef := rfl
@[simp] theorem setReg_out (r : Reg) (v : Byte) : (s.setReg r v).out = s.out := rfl
@[simp] theorem setReg_time (r : Reg) (v : Byte) : (s.setReg r v).time = s.time := rfl
@[simp] theorem setReg_polls (r : Reg) (v : Byte) : (s.setReg r v).polls = s.polls := rfl
@[simp] theorem setReg_readByte (r : Reg) (v : Byte) (b : Byte) : (s.setReg r v).readByte b = s.readByte b := rfl

/-! ### setPc -/

@[simp] theorem setPc_reg (v : Byte) (q : Reg) : (s.setPc v).reg q = s.reg q := rfl
@[simp] theorem setPc_pc (v : Byte) : (s.setPc v).pc = v := rfl
@[simp] theorem setPc_fl (v : Byte) : (s.setPc v).fl = s.fl := rfl
@[simp] theorem setPc_mem (v : Byte) : (s.setPc v).mem = s.mem := rfl
@[simp] theorem setPc_ir (v : Byte) : (s.setPc v).ir = s.ir := rfl
@[simp] theorem setPc_halted (v : Byte) : (s.setPc v).halted = s.halted := rfl
@[simp] theorem setPc_fault (v : Byte) : (s.setPc v).fault = s.fault := rfl
@[simp] theorem setPc_tRef (v : Byte) : (s.setPc v).tRef = s.tRef := rfl
@[simp] theorem setPc_out (v : Byte) : (s.setPc v).out = s.out := rfl
@[simp] theorem setPc_time (v : Byte) : (s.setPc v).time = s.time := rfl
@[simp] theorem setPc_polls (v : Byte) : (s.setPc v).polls = s.polls := rfl
@[simp] theorem setPc_readByte (v : Byte) (b : Byte) : (s.setPc v).readByte b = s.readByte b := rfl

/-! ### setFl -/

@[simp] theorem setFl_reg (v : Byte) (q : Reg) : (s.setFl v).reg q = s.reg q := rfl
@[simp] theorem setFl_pc (v : Byte) : (s.setFl v).pc = s.pc := rfl
@[simp] theorem setFl_fl (v : Byte) : (s.setFl v).fl = v := rfl
@[simp] theorem setFl_mem (v : Byte) : (s.setFl v).mem = s.mem := rfl
@[simp] theorem setFl_ir (v : Byte) : (s.setFl v).ir = s.ir := rfl
@[simp] theorem setFl_halted (v : Byte) : (s.setFl v).halted = s.halted := rfl
@[simp] theorem setFl_fault (v : Byte) : (s.setFl v).fault = s.fault := rfl
@[simp] theorem setFl_tRef (v : Byte) : (s.setFl v).tRef = s.tRef := rfl
@[simp] theorem setFl_out (v : Byte) : (s.setFl v).out = s.out := rfl
@[simp] theorem setFl_time (v : Byte) : (s.setFl v).time = s.time := rfl
@[simp] theorem setFl_polls (v : Byte) : (s.setFl v).polls = s.polls := rfl
@[simp] theorem setFl_readByte (v : Byte) (b : Byte) : (s.setFl v).readByte b = s.readByte b := rfl

/-! ### setIr -/

@[simp] theorem setIr_reg (v : Byte) (q : Reg) : (s.setIr v).reg q = s.reg q := rfl
@[simp] theorem setIr_pc (v : Byte) : (s.setIr v).pc = s.pc := rfl
@[simp] theorem setIr_fl (v : Byte) : (s.setIr v).fl = s.fl := rfl
@[simp] theorem setIr_mem (v : Byte) : (s.setIr v).mem = s.mem := rfl
@[simp] theorem setIr_ir (v : Byte) : (s.setIr v).ir = v := rfl
@[simp] theorem setIr_halted (v : Byte) : (s.setIr v).halted = s.halted := rfl
@[simp] theorem setIr_fault (v : Byte) : (s.setIr v).fault = s.fault := rfl
@[simp] theorem setIr_tRef (v : Byte) : (s.setIr v).tRef = s.tRef := rfl
@[simp] theorem setIr_out (v : Byte) : (s.setIr v).out = s.out := rfl
@[simp] theorem setIr_time (v : Byte) : (s.setIr v).time = s.time := rfl
@[simp] theorem setIr_polls (v : Byte) : (s.setIr v).polls = s.polls := rfl
@[simp] theorem setIr_readByte (v : Byte) (b : Byte) : (s.setIr v).readByte b = s.readByte b := rfl

/-! ### halt -/

@[simp] theorem halt_reg (q : Reg) : (s.halt).reg q = s.reg q := rfl
@[simp] theorem halt_pc : (s.halt).pc = s.pc := rfl
@[simp] theorem halt_fl : (s.halt).fl = s.fl := rfl
@[simp] theorem halt_mem : (s.halt).mem = s.mem := rfl
@[simp] theorem halt_ir : (s.halt).ir = s.ir := rfl
@[simp] theorem halt_halted : (s.halt).halted = true := rfl
@[simp] theorem halt_fault : (s.halt).fault = s.fault := rfl
@[simp] theorem halt_tRef : (s.halt).tRef = s.tRef := rfl
@[simp] theorem halt_out : (s.halt).out = s.out := rfl
@[simp] theorem halt_time : (s.halt).time = s.time := rfl
@[simp] theorem halt_polls : (s.halt).polls = s.polls := rfl
@[simp] theorem halt_readByte (b : Byte) : (s.halt).readByte b = s.readByte b := rfl

/-! ### emit -/

@[simp] theorem emit_reg (e : OutEvent) (q : Reg) : (s.emit e).reg q = s.reg q := rfl
@[simp] theorem emit_pc (e : OutEvent) : (s.emit e).pc = s.pc := rfl
@[simp] theorem emit_fl (e : OutEvent) : (s.emit e).fl = s.fl := rfl
@[simp] theorem emit_mem (e : OutEvent) : (s.emit e).mem = s.mem := rfl
@[simp] theorem emit_ir (e : OutEvent) : (s.emit e).ir = s.ir := rfl
@[simp] theorem emit_halted (e : OutEvent) : (s.emit e).halted = s.halted := rfl
@[simp] theorem emit_fault (e : OutEvent) : (s.emit e).fault = s.fault := rfl
@[simp] theorem emit_tRef (e : OutEvent) : (s.emit e).tRef = s.tRef := rfl
@[simp] theorem emit_out (e : OutEvent) : (s.emit e).out = s.out ++ [e] := rfl
@[simp] theorem emit_time (e : OutEvent) : (s.emit e).time = s.time := rfl
@[simp] theorem emit_polls (e : OutEvent) : (s.emit e).polls = s.polls := rfl
@[simp] theorem emit_readByte (e : OutEvent) (b : Byte) : (s.emit e).readByte b = s.readByte b := rfl

/-! ### writeByte -/

@[simp] theorem writeByte_reg (a v : Byte) (q : Reg) : (s.writeByte a v).reg q = s.reg q := rfl
@[simp] theorem writeByte_pc (a v : Byte) : (s.writeByte a v).pc = s.pc := rfl
@[simp] theorem writeByte_fl (a v : Byte) : (s.writeByte a v).fl = s.fl := rfl
@[simp] theorem writeByte_mem (a v : Byte) : (s.writeByte a v).mem = s.mem.write a v := rfl
@[simp] theorem writeByte_ir (a v : Byte) : (s.writeByte a v).ir = s.ir := rfl
@[simp] theorem writeByte_halted (a v : Byte) : (s.writeByte a v).halted = s.halted := rfl
@[simp] theorem writeByte_fault (a v : Byte) : (s.writeByte a v).fault = s.fault := rfl
@[simp] theorem writeByte_tRef (a v : Byte) : (s.writeByte a v).tRef = s.tRef := rfl
@[simp] theorem writeByte_out (a v : Byte) : (s.writeByte a v).out = s.out := rfl
@[simp] theorem writeByte_time (a v : Byte) : (s.writeByte a v).time = s.time := rfl
@[simp] theorem writeByte_polls (a v : Byte) : (s.writeByte a v).polls = s.polls := rfl

/-! ### raise -/

@[simp] theorem raise_reg (k : FaultKind) (o a : Byte) (q : Reg) : (raise k o a s).reg q = s.reg q := rfl
@[simp] theorem raise_pc (k : FaultKind) (o a : Byte) : (raise k o a s).pc = s.pc := rfl
@[simp] theorem raise_fl (k : FaultKind) (o a : Byte) : (raise k o a s).fl = s.fl := rfl
@[simp] theorem raise_mem (k : FaultKind) (o a : Byte) : (raise k o a s).mem = s.mem := rfl
@[simp] theorem raise_ir (k : FaultKind) (o a : Byte) : (raise k o a s).ir = s.ir := rfl
@[simp] theorem raise_halted (k : FaultKind) (o a : Byte) : (raise k o a s).halted = s.halted := rfl
@[simp] theorem raise_fault (k : FaultKind) (o a : Byte) : (raise k o a s).fault = some ⟨k, o, a⟩ := rfl
@[simp] theorem raise_tRef (k : FaultKind) (o a : Byte) : (raise k o a s).tRef = s.tRef := rfl
@[simp] theorem raise_out (k : FaultKind) (o a : Byte) : (raise k o a s).out = s.out := rfl
@[simp] theorem raise_time (k : FaultKind) (o a : Byte) : (raise k o a s).time = s.time := rfl
@[simp] theorem raise_polls (k : FaultKind) (o a : Byte) : (raise k o a s).polls = s.polls := rfl
@[simp] theorem raise_readByte (k : FaultKind) (o a : Byte) (b : Byte) : (raise k o a s).readByte b = s.readByte b := rfl

/-! ### Reading back a register and a cell -/

theorem setReg_reg (r q : Reg) (v : Byte) : (s.setReg r v).reg q = if q = r then v else s.reg q := by
  simp only [State.reg, State.setReg, Fin.getElem_fin, Vector.getElem_set, Fin.ext_iff, eq_comm]

@[simp] theorem setReg_reg_self (r : Reg) (v : Byte) : (s.setReg r v).reg r = v := by simp [setReg_reg]

@[simp] theorem setReg_reg_ne {r q : Reg} (h : q ≠ r) (v : Byte) : (s.setReg r v).reg q = s.reg q := by
  simp [setReg_reg, h]

theorem writeByte_readByte (a b v : Byte) : (s.writeByte a v).readByte b = if b = a then v else s.readByte b :=
  Memory.read_write _ _ _ _

@[simp] theorem writeByte_readByte_self (a v : Byte) : (s.writeByte a v).readByte a = v := by
  simp [writeByte_readByte]

@[simp] theorem writeByte_readByte_ne {a b : Byte} (h : b ≠ a) (v : Byte) :
    (s.writeByte a v).readByte b = s.readByte b := by
  simp [writeByte_readByte, h]

/-! ### Equality of states -/

/-- Two register files that read alike are equal. -/
theorem regs_ext {s t : State} (h : ∀ r, s.reg r = t.reg r) : s.regs = t.regs :=
  Vector.ext fun i hi => h ⟨i, hi⟩

end Sys2Proof.Machine
end

