-- ==== Sys2Proof/Laws/Ops.lean ====
section
/-! SUPPORT. One lemma per shared operation that says once what it does, which later proofs cite. -/

namespace Sys2Proof.Machine

variable (s : State)

/-! ### The stack primitives -/

theorem push_reg (v : Byte) (q : Reg) : (push v s).reg q = if q = SP then s.reg SP - 1 else s.reg q := by
  simp [push, setReg_reg]

@[simp] theorem push_reg_sp (v : Byte) : (push v s).reg SP = s.reg SP - 1 := by simp [push_reg]

@[simp] theorem push_reg_ne {q : Reg} (h : q ≠ SP) (v : Byte) : (push v s).reg q = s.reg q := by simp [push_reg, h]

theorem push_readByte (v a : Byte) :
    (push v s).readByte a = if a = s.reg SP - 1 then v else s.readByte a := by
  simp [push, writeByte_readByte]

@[simp] theorem push_pc (v : Byte) : (push v s).pc = s.pc := rfl
@[simp] theorem push_fl (v : Byte) : (push v s).fl = s.fl := rfl
@[simp] theorem push_ir (v : Byte) : (push v s).ir = s.ir := rfl
@[simp] theorem push_halted (v : Byte) : (push v s).halted = s.halted := rfl
@[simp] theorem push_fault (v : Byte) : (push v s).fault = s.fault := rfl
@[simp] theorem push_tRef (v : Byte) : (push v s).tRef = s.tRef := rfl
@[simp] theorem push_out (v : Byte) : (push v s).out = s.out := rfl
@[simp] theorem push_time (v : Byte) : (push v s).time = s.time := rfl
@[simp] theorem push_polls (v : Byte) : (push v s).polls = s.polls := rfl

theorem push_memWf {s : State} (h : s.mem.wf = true) (v : Byte) : (push v s).mem.wf = true :=
  Memory.wf_write h _ _

theorem pop_eq : pop s = (s.readByte (s.reg SP), s.setReg SP (s.reg SP + 1)) := rfl

theorem popInto_reg (r q : Reg) : (popInto r s).reg q =
    if q = r then s.readByte (s.reg SP) else if q = SP then s.reg SP + 1 else s.reg q := by
  simp [popInto, pop_eq, setReg_reg]

@[simp] theorem popInto_pc (r : Reg) : (popInto r s).pc = s.pc := rfl
@[simp] theorem popInto_fl (r : Reg) : (popInto r s).fl = s.fl := rfl
@[simp] theorem popInto_mem (r : Reg) : (popInto r s).mem = s.mem := rfl
@[simp] theorem popInto_readByte (r : Reg) (a : Byte) : (popInto r s).readByte a = s.readByte a := rfl
@[simp] theorem popInto_ir (r : Reg) : (popInto r s).ir = s.ir := rfl
@[simp] theorem popInto_halted (r : Reg) : (popInto r s).halted = s.halted := rfl
@[simp] theorem popInto_fault (r : Reg) : (popInto r s).fault = s.fault := rfl
@[simp] theorem popInto_tRef (r : Reg) : (popInto r s).tRef = s.tRef := rfl
@[simp] theorem popInto_out (r : Reg) : (popInto r s).out = s.out := rfl
@[simp] theorem popInto_time (r : Reg) : (popInto r s).time = s.time := rfl
@[simp] theorem popInto_polls (r : Reg) : (popInto r s).polls = s.polls := rfl

/-! ### The timer poll -/

theorem isTick_iff (now : Nat) : isTick now s = true ↔ s.tRef + Config.timerPeriod ≤ now := by
  have : 0 < Config.timerPeriod := Nat.succ_pos _
  simp only [isTick, decide_eq_true_eq]
  omega

theorem timerPoll_reg (now : Nat) (q : Reg) : (timerPoll now s).reg q =
    if q = IS then (if isTick now s then s.reg IS ||| 1 else s.reg IS) else s.reg q := by
  have := setReg_reg s IS q (if isTick now s then s.reg IS ||| 0b00000001 else s.reg IS)
  simpa [State.setReg, State.reg, timerPoll] using this

@[simp] theorem timerPoll_reg_ne {q : Reg} (h : q ≠ IS) (now : Nat) : (timerPoll now s).reg q = s.reg q := by
  simp [timerPoll_reg, h]

theorem timerPoll_tRef (now : Nat) : (timerPoll now s).tRef = if isTick now s then now else s.tRef := rfl
@[simp] theorem timerPoll_pc (now : Nat) : (timerPoll now s).pc = s.pc := rfl
@[simp] theorem timerPoll_fl (now : Nat) : (timerPoll now s).fl = s.fl := rfl
@[simp] theorem timerPoll_mem (now : Nat) : (timerPoll now s).mem = s.mem := rfl
@[simp] theorem timerPoll_readByte (now : Nat) (a : Byte) : (timerPoll now s).readByte a = s.readByte a := rfl
@[simp] theorem timerPoll_ir (now : Nat) : (timerPoll now s).ir = s.ir := rfl
@[simp] theorem timerPoll_halted (now : Nat) : (timerPoll now s).halted = s.halted := rfl
@[simp] theorem timerPoll_fault (now : Nat) : (timerPoll now s).fault = s.fault := rfl
@[simp] theorem timerPoll_out (now : Nat) : (timerPoll now s).out = s.out := rfl
@[simp] theorem timerPoll_time (now : Nat) : (timerPoll now s).time = now := rfl
@[simp] theorem timerPoll_polls (now : Nat) : (timerPoll now s).polls = s.polls + 1 := rfl

theorem time_le_timeInput : s.time ≤ timeInput s := Nat.le_add_right _ _

/-! ### The interrupt check -/

/-- No line is taken exactly when no line is both enabled and pending. -/
theorem pendingLine_eq_none : pendingLine s = none ↔ ∀ i : Reg, (s.reg IM &&& s.reg IS).getLsbD i = false := by
  simp [pendingLine, List.find?_eq_none]

/-- The line taken is enabled and pending. -/
theorem pendingLine_eq_some {i : Reg} (h : pendingLine s = some i) : (s.reg IM &&& s.reg IS).getLsbD i = true := by
  simpa using List.find?_some h

/-- The interrupt check leaves the state alone or enters one interrupt. -/
theorem interruptCheck_cases : interruptCheck s = s ∨ ∃ i, interruptCheck s = interruptEntry i s := by
  unfold interruptCheck
  cases pendingLine s with
  | none => exact .inl rfl
  | some i => exact .inr ⟨i, rfl⟩

/-! ### Operands and the end of the cycle -/

@[simp] theorem regOperand_regByte (r : Reg) : regOperand (regByte r) = .ok r := by
  simp [regOperand, regByte_toNat]

theorem regOperand_error {b : Byte} (h : 7 < b.toNat) : regOperand b = .error .invalidRegister := by
  simp [regOperand, Nat.not_lt.mpr h]

@[simp] theorem withReg_regByte (r : Reg) (k : Reg → Handled) : withReg (regByte r) k = k r := by
  simp [withReg]

@[simp] theorem withReg_error {b : Byte} (h : 7 < b.toNat) (k : Reg → Handled) :
    withReg b k = .error .invalidRegister := by
  simp [withReg, regOperand_error h]

/-- A raised error is recorded and PC stays. -/
@[simp] theorem finish_error (o : Opcode) (k : FaultKind) :
    finish o s (.error k) = .next (raise k (opcodeByte o) s.pc s) := rfl

/-- After a handler that wrote PC, PC stays as it wrote it. -/
theorem finish_ok_pc {o : Opcode} (h : pcMutation (opcodeByte o) = true) (t : State) :
    finish o s (.ok t) = .next t := by
  simp [finish, h]

/-- After any other handler, PC is the address of the next instruction. -/
theorem finish_ok_advance {o : Opcode} (h : pcMutation (opcodeByte o) = false) (t : State) :
    finish o s (.ok t) = .next (t.setPc (s.pc + BitVec.ofNat 8 (instrLength (opcodeByte o)))) := by
  simp [finish, h]

/-- Everything the end of a cycle can be. -/
theorem finish_cases {o : Opcode} {h : Handled} {t : State} (e : finish o s h = .next t) :
    (∃ k, h = .error k ∧ t = raise k (opcodeByte o) s.pc s) ∨
    (∃ u, h = .ok u ∧ pcMutation (opcodeByte o) = true ∧ t = u) ∨
    (∃ u, h = .ok u ∧ pcMutation (opcodeByte o) = false ∧
      t = u.setPc (s.pc + BitVec.ofNat 8 (instrLength (opcodeByte o)))) := by
  cases h with
  | error k => exact .inl ⟨k, rfl, by simpa using e.symm⟩
  | ok u =>
    cases hp : pcMutation (opcodeByte o) with
    | true => exact .inr (.inl ⟨u, rfl, rfl, by simpa [finish_ok_pc s hp] using e.symm⟩)
    | false => exact .inr (.inr ⟨u, rfl, rfl, by simpa [finish_ok_advance s hp] using e.symm⟩)

end Sys2Proof.Machine
end

