-- ==== Sys2Proof/Laws/Exec.lean ====
section
/-! SUPPORT. One equation per instruction: what `exec` answers on well-formed operands, in the shared operations; and
the one inversion lemma, `exec_effect`: everything `exec` can answer. -/

namespace Sys2Proof.Machine

variable (s : State) (a b : Reg) (v : Byte)

theorem exec_nop : exec .nop s = .next (s.setPc (s.pc + 1)) := by simp [exec, execNop, formF0, finish_ok_advance]

theorem exec_hlt : exec .hlt s = .next (s.halt.setPc (s.pc + 1)) := by simp [exec, execHlt, formF0, finish_ok_advance]

theorem exec_ret : exec .ret s = .next ((pop s).2.setPc (pop s).1) := by
  simp [exec, execRet, formF0, retHandler, finish_ok_pc]

theorem exec_iret : exec .iret s = .next (interruptReturn s) := by simp [exec, execIret, formF0, finish_ok_pc]

theorem exec_push : exec (.push (regByte a)) s = .next
    ((push ((s.setReg SP (s.reg SP - 1)).reg a) s).setPc (s.pc + 2)) := by
  simp [exec, execPush, formF1R, pushHandler, push, finish_ok_advance]

theorem exec_pop : exec (.pop (regByte a)) s = .next
    (((s.setReg a (s.readByte (s.reg SP))).setReg SP
      ((s.setReg a (s.readByte (s.reg SP))).reg SP + 1)).setPc (s.pc + 2)) := by
  simp [exec, execPop, formF1R, popHandler, finish_ok_advance]

theorem exec_call : exec (.call (regByte a)) s = .next
    ((push (s.pc + 2) s).setPc ((push (s.pc + 2) s).reg a)) := by
  simp [exec, execCall, formF1R, callHandler, finish_ok_pc]

theorem exec_prn : exec (.prn (regByte a)) s = .next ((s.emit (.dec (s.reg a))).setPc (s.pc + 2)) := by
  simp [exec, execPrn, formF1R, finish_ok_advance]

theorem exec_pra : exec (.pra (regByte a)) s = .next ((s.emit (.chr (s.reg a))).setPc (s.pc + 2)) := by
  simp [exec, execPra, formF1R, finish_ok_advance]

theorem exec_jmp : exec (.jmp (regByte a)) s = .next (s.setPc (s.reg a)) := by
  simp [exec, execJmp, formF1R, finish_ok_pc]

theorem exec_jeq : exec (.jeq (regByte a)) s = .next (s.setPc (if flagE s.fl then s.reg a else s.pc + 2)) := by
  simp [exec, execJeq, formF1R, branchTo, finish_ok_pc]

theorem exec_jne : exec (.jne (regByte a)) s = .next (s.setPc (if !flagE s.fl then s.reg a else s.pc + 2)) := by
  simp [exec, execJne, formF1R, branchTo, finish_ok_pc]

theorem exec_ldi : exec (.ldi (regByte a) v) s = .next ((s.setReg a v).setPc (s.pc + 3)) := by
  simp [exec, execLdi, formF2RI, finish_ok_advance]

theorem exec_st : exec (.st (regByte a) (regByte b)) s = .next ((s.writeByte (s.reg a) (s.reg b)).setPc (s.pc + 3)) := by
  simp [exec, execSt, formF2RR, finish_ok_advance]

theorem exec_add : exec (.add (regByte a) (regByte b)) s = .next
    ((s.setReg a (s.reg a + s.reg b)).setPc (s.pc + 3)) := by
  simp [exec, execAdd, formF2RR, alu, finish_ok_advance]

theorem exec_sub : exec (.sub (regByte a) (regByte b)) s = .next
    ((s.setReg a (s.reg a - s.reg b)).setPc (s.pc + 3)) := by
  simp [exec, execSub, formF2RR, alu, finish_ok_advance]

theorem exec_mul : exec (.mul (regByte a) (regByte b)) s = .next
    ((s.setReg a (s.reg a * s.reg b)).setPc (s.pc + 3)) := by
  simp [exec, execMul, formF2RR, alu, finish_ok_advance]

theorem exec_div (h : s.reg b ≠ 0) : exec (.div (regByte a) (regByte b)) s = .next
    ((s.setReg a (s.reg a / s.reg b)).setPc (s.pc + 3)) := by
  have h' : ¬ s.reg b = 0#8 := h
  simp [exec, execDiv, formF2RR, alu, h', finish_ok_advance]

theorem exec_div_zero (h : s.reg b = 0) : exec (.div (regByte a) (regByte b)) s = .next
    (raise .divisionByZero (opcodeByte .div) s.pc s) := by
  simp [exec, execDiv, formF2RR, alu, h]

theorem exec_mod (h : s.reg b ≠ 0) : exec (.mod (regByte a) (regByte b)) s = .next
    ((s.setReg a (s.reg a % s.reg b)).setPc (s.pc + 3)) := by
  have h' : ¬ s.reg b = 0#8 := h
  simp [exec, execMod, formF2RR, alu, h', finish_ok_advance]

theorem exec_mod_zero (h : s.reg b = 0) : exec (.mod (regByte a) (regByte b)) s = .next
    (raise .divisionByZero (opcodeByte .mod) s.pc s) := by
  simp [exec, execMod, formF2RR, alu, h]

theorem exec_cmp : exec (.cmp (regByte a) (regByte b)) s = .next
    ((s.setFl (cmpFlags s.fl (s.reg a) (s.reg b))).setPc (s.pc + 3)) := by
  simp [exec, execCmp, formF2RR, alu, finish_ok_advance]

/-! ### Everything `exec` can answer -/

/-- An ill-formed instruction raises InvalidRegister, whatever the instruction (40_execution_engine.md R105). -/
theorem exec_illFormed {i : Instr} (h : i.wellFormed = false) :
    exec i s = .next (raise .invalidRegister (opcodeByte i.opcode) s.pc s) := by
  have one : ∀ {c : Byte} {k : Reg → Handled}, ¬ c.toNat < 8 → withReg c k = .error .invalidRegister :=
    fun hc => withReg_error (by omega) _
  have two : ∀ {c d : Byte} {k : Reg → Reg → Handled}, (c.toNat < 8 → ¬ d.toNat < 8) →
      (withReg c fun x => withReg d fun y => k x y) = .error .invalidRegister := by
    intro c d k hcd
    by_cases hc : c.toNat < 8
    · obtain ⟨r, rfl⟩ := exists_regByte hc
      rw [withReg_regByte, one (hcd hc)]
    · exact one hc
  cases i <;>
    simp only [Instr.wellFormed, Instr.registerOperands, List.all_cons, List.all_nil, Bool.and_true, Bool.and_eq_false_iff,
      decide_eq_false_iff_not, reduceCtorEq, ← imp_iff_not_or] at h
  all_goals
    first
    | (simp only [exec, execPush, execPop, execPrn, execPra, execCall, execJmp, execJeq, execJne, execLdi, formF1R,
        formF2RI, one h]; rfl)
    | (simp only [exec, execSt, execAdd, execSub, execMul, execDiv, execMod, execCmp, formF2RR,
        two h]; rfl)

/-- What one instruction can do to the state: its effect on registers it names, or a fatal error recorded. -/
inductive Effect : Instr → State → State → Prop
  | nop (s : State) : Effect .nop s (s.setPc (s.pc + 1))
  | hlt (s : State) : Effect .hlt s (s.halt.setPc (s.pc + 1))
  | ret (s : State) : Effect .ret s ((pop s).2.setPc (pop s).1)
  | iret (s : State) : Effect .iret s (interruptReturn s)
  | push (a : Reg) (s : State) :
      Effect (.push (regByte a)) s ((Machine.push ((s.setReg SP (s.reg SP - 1)).reg a) s).setPc (s.pc + 2))
  | pop (a : Reg) (s : State) :
      Effect (.pop (regByte a)) s (((s.setReg a (s.readByte (s.reg SP))).setReg SP
        ((s.setReg a (s.readByte (s.reg SP))).reg SP + 1)).setPc (s.pc + 2))
  | prn (a : Reg) (s : State) : Effect (.prn (regByte a)) s ((s.emit (.dec (s.reg a))).setPc (s.pc + 2))
  | pra (a : Reg) (s : State) : Effect (.pra (regByte a)) s ((s.emit (.chr (s.reg a))).setPc (s.pc + 2))
  | call (a : Reg) (s : State) :
      Effect (.call (regByte a)) s ((Machine.push (s.pc + 2) s).setPc ((Machine.push (s.pc + 2) s).reg a))
  | jmp (a : Reg) (s : State) : Effect (.jmp (regByte a)) s (s.setPc (s.reg a))
  | jeq (a : Reg) (s : State) : Effect (.jeq (regByte a)) s (s.setPc (if flagE s.fl then s.reg a else s.pc + 2))
  | jne (a : Reg) (s : State) : Effect (.jne (regByte a)) s (s.setPc (if !flagE s.fl then s.reg a else s.pc + 2))
  | ldi (a : Reg) (v : Byte) (s : State) : Effect (.ldi (regByte a) v) s ((s.setReg a v).setPc (s.pc + 3))
  | st (a b : Reg) (s : State) :
      Effect (.st (regByte a) (regByte b)) s ((s.writeByte (s.reg a) (s.reg b)).setPc (s.pc + 3))
  | add (a b : Reg) (s : State) :
      Effect (.add (regByte a) (regByte b)) s ((s.setReg a (s.reg a + s.reg b)).setPc (s.pc + 3))
  | sub (a b : Reg) (s : State) :
      Effect (.sub (regByte a) (regByte b)) s ((s.setReg a (s.reg a - s.reg b)).setPc (s.pc + 3))
  | mul (a b : Reg) (s : State) :
      Effect (.mul (regByte a) (regByte b)) s ((s.setReg a (s.reg a * s.reg b)).setPc (s.pc + 3))
  | div (a b : Reg) (s : State) (h : s.reg b ≠ 0) :
      Effect (.div (regByte a) (regByte b)) s ((s.setReg a (s.reg a / s.reg b)).setPc (s.pc + 3))
  | mod (a b : Reg) (s : State) (h : s.reg b ≠ 0) :
      Effect (.mod (regByte a) (regByte b)) s ((s.setReg a (s.reg a % s.reg b)).setPc (s.pc + 3))
  | cmp (a b : Reg) (s : State) :
      Effect (.cmp (regByte a) (regByte b)) s ((s.setFl (cmpFlags s.fl (s.reg a) (s.reg b))).setPc (s.pc + 3))
  | div_zero (a b : Reg) (s : State) (h : s.reg b = 0) : Effect (.div (regByte a) (regByte b)) s
      (raise .divisionByZero (opcodeByte .div) s.pc s)
  | mod_zero (a b : Reg) (s : State) (h : s.reg b = 0) : Effect (.mod (regByte a) (regByte b)) s
      (raise .divisionByZero (opcodeByte .mod) s.pc s)
  | invalidRegister {i : Instr} (s : State) (h : i.wellFormed = false) :
      Effect i s (raise .invalidRegister (opcodeByte i.opcode) s.pc s)

/-- Everything `exec` can answer (the inversion lemma later proofs cite). -/
theorem exec_effect {i : Instr} {s t : State} (h : exec i s = .next t) : Effect i s t := by
  have ans : ∀ {u : State}, exec i s = .next u → Effect i s u → Effect i s t := fun hu e => by
    rw [hu] at h
    exact Host.Outcome.next.inj h ▸ e
  cases hw : i.wellFormed with
  | false => exact ans (exec_illFormed s hw) (.invalidRegister s hw)
  | true =>
    have reg : ∀ {c : Byte}, decide (c.toNat < 8) = true → ∃ r, c = regByte r :=
      fun hc => exists_regByte (of_decide_eq_true hc)
    cases i <;> simp only [Instr.wellFormed, Instr.registerOperands, List.all_cons, List.all_nil, Bool.and_true,
      Bool.and_eq_true] at hw
    case nop => exact ans (exec_nop s) (.nop s)
    case hlt => exact ans (exec_hlt s) (.hlt s)
    case ret => exact ans (exec_ret s) (.ret s)
    case iret => exact ans (exec_iret s) (.iret s)
    case push => obtain ⟨a, rfl⟩ := reg hw; exact ans (exec_push s a) (.push a s)
    case pop => obtain ⟨a, rfl⟩ := reg hw; exact ans (exec_pop s a) (.pop a s)
    case prn => obtain ⟨a, rfl⟩ := reg hw; exact ans (exec_prn s a) (.prn a s)
    case pra => obtain ⟨a, rfl⟩ := reg hw; exact ans (exec_pra s a) (.pra a s)
    case call => obtain ⟨a, rfl⟩ := reg hw; exact ans (exec_call s a) (.call a s)
    case jmp => obtain ⟨a, rfl⟩ := reg hw; exact ans (exec_jmp s a) (.jmp a s)
    case jeq => obtain ⟨a, rfl⟩ := reg hw; exact ans (exec_jeq s a) (.jeq a s)
    case jne => obtain ⟨a, rfl⟩ := reg hw; exact ans (exec_jne s a) (.jne a s)
    case ldi _ v => obtain ⟨a, rfl⟩ := reg hw; exact ans (exec_ldi s a v) (.ldi a v s)
    all_goals
      obtain ⟨a, rfl⟩ := reg hw.1
      obtain ⟨b, rfl⟩ := reg hw.2
    case st => exact ans (exec_st s a b) (.st a b s)
    case add => exact ans (exec_add s a b) (.add a b s)
    case sub => exact ans (exec_sub s a b) (.sub a b s)
    case mul => exact ans (exec_mul s a b) (.mul a b s)
    case cmp => exact ans (exec_cmp s a b) (.cmp a b s)
    case div =>
      by_cases h0 : s.reg b = 0
      · exact ans (exec_div_zero s a b h0) (.div_zero a b s h0)
      · exact ans (exec_div s a b h0) (.div a b s h0)
    case mod =>
      by_cases h0 : s.reg b = 0
      · exact ans (exec_mod_zero s a b h0) (.mod_zero a b s h0)
      · exact ans (exec_mod s a b h0) (.mod a b s h0)

end Sys2Proof.Machine
end

