-- ==== Sys2Proof/Laws/Interrupt.lean ====
section
/-! SUPPORT. Everything taking an interrupt and returning from one do: every register, every cell, every other field. -/

namespace Sys2Proof.Machine

variable (line : Reg) (s : State)

theorem sub_sub_byte (x a b : Byte) : x - a - b = x - (a + b) := BitVec.sub_sub ..

/-! ### Interrupt entry (60_exceptions.md R215, R216) -/

/-- Every cell after interrupt entry: the nine of the frame, the rest as before. -/
theorem interruptEntry_readByte (a : Byte) : (interruptEntry line s).readByte a =
    if a = s.reg SP - 9 then 0 else if a = s.reg SP - 8 then 0
    else if a = s.reg SP - 7 then s.reg 4 else if a = s.reg SP - 6 then s.reg 3
    else if a = s.reg SP - 5 then s.reg 2 else if a = s.reg SP - 4 then s.reg 1
    else if a = s.reg SP - 3 then s.reg 0 else if a = s.reg SP - 2 then s.fl
    else if a = s.reg SP - 1 then s.pc else s.readByte a := by
  simp [interruptEntry, savedRegs, push_readByte, push_reg, IM, IS, SP, sub_sub_byte]
  rfl

/-- Every register after interrupt entry. -/
theorem interruptEntry_reg (q : Reg) : (interruptEntry line s).reg q =
    if q = SP then s.reg SP - 9 else if q = IM ∨ q = IS then 0 else s.reg q := by
  have h : ∀ r : Reg, r = 0 ∨ r = 1 ∨ r = 2 ∨ r = 3 ∨ r = 4 ∨ r = 5 ∨ r = 6 ∨ r = 7 := by decide
  rcases h q with rfl | rfl | rfl | rfl | rfl | rfl | rfl | rfl <;>
    simp [interruptEntry, savedRegs, push_reg, IM, IS, SP, sub_sub_byte]

theorem interruptEntry_pc : (interruptEntry line s).pc = (interruptEntry line s).readByte Config.vectorAddr := rfl

@[simp] theorem interruptEntry_fl : (interruptEntry line s).fl = s.fl := by simp [interruptEntry, savedRegs]
@[simp] theorem interruptEntry_ir : (interruptEntry line s).ir = s.ir := by simp [interruptEntry, savedRegs]
@[simp] theorem interruptEntry_halted : (interruptEntry line s).halted = s.halted := by
  simp [interruptEntry, savedRegs]
@[simp] theorem interruptEntry_fault : (interruptEntry line s).fault = s.fault := by simp [interruptEntry, savedRegs]
@[simp] theorem interruptEntry_tRef : (interruptEntry line s).tRef = s.tRef := by simp [interruptEntry, savedRegs]
@[simp] theorem interruptEntry_out : (interruptEntry line s).out = s.out := by simp [interruptEntry, savedRegs]
@[simp] theorem interruptEntry_time : (interruptEntry line s).time = s.time := by simp [interruptEntry, savedRegs]
@[simp] theorem interruptEntry_polls : (interruptEntry line s).polls = s.polls := by simp [interruptEntry, savedRegs]

theorem interruptEntry_memWf {s : State} (h : s.mem.wf = true) : (interruptEntry line s).mem.wf = true := by
  simp only [interruptEntry, savedRegs, List.foldl, setPc_mem]
  repeat' apply push_memWf
  exact h

/-! ### The return from an interrupt (44_interrupt_return.md R170) -/

/-- Every register after the return. -/
theorem interruptReturn_reg (q : Reg) : (interruptReturn s).reg q =
    if q = 0 then s.readByte (s.reg SP + 6) else if q = 1 then s.readByte (s.reg SP + 5)
    else if q = 2 then s.readByte (s.reg SP + 4) else if q = 3 then s.readByte (s.reg SP + 3)
    else if q = 4 then s.readByte (s.reg SP + 2) else if q = IM then Config.imReenable
    else if q = IS then s.readByte (s.reg SP) else s.reg SP + 9 := by
  have h : ∀ r : Reg, r = 0 ∨ r = 1 ∨ r = 2 ∨ r = 3 ∨ r = 4 ∨ r = 5 ∨ r = 6 ∨ r = 7 := by decide
  rcases h q with rfl | rfl | rfl | rfl | rfl | rfl | rfl | rfl <;>
    simp [interruptReturn, savedRegs, pop_eq, popInto_reg, IM, IS, SP, BitVec.add_assoc]

theorem interruptReturn_fl : (interruptReturn s).fl = s.readByte (s.reg SP + 7) := by
  simp [interruptReturn, savedRegs, pop_eq, popInto_reg, SP, BitVec.add_assoc]

theorem interruptReturn_pc : (interruptReturn s).pc = s.readByte (s.reg SP + 8) := by
  simp [interruptReturn, savedRegs, pop_eq, popInto_reg, SP, BitVec.add_assoc]

@[simp] theorem interruptReturn_mem : (interruptReturn s).mem = s.mem := by
  simp [interruptReturn, savedRegs, pop_eq]
@[simp] theorem interruptReturn_ir : (interruptReturn s).ir = s.ir := by simp [interruptReturn, savedRegs, pop_eq]
@[simp] theorem interruptReturn_halted : (interruptReturn s).halted = s.halted := by
  simp [interruptReturn, savedRegs, pop_eq]
@[simp] theorem interruptReturn_fault : (interruptReturn s).fault = s.fault := by
  simp [interruptReturn, savedRegs, pop_eq]
@[simp] theorem interruptReturn_tRef : (interruptReturn s).tRef = s.tRef := by
  simp [interruptReturn, savedRegs, pop_eq]
@[simp] theorem interruptReturn_out : (interruptReturn s).out = s.out := by simp [interruptReturn, savedRegs, pop_eq]
@[simp] theorem interruptReturn_time : (interruptReturn s).time = s.time := by
  simp [interruptReturn, savedRegs, pop_eq]
@[simp] theorem interruptReturn_polls : (interruptReturn s).polls = s.polls := by
  simp [interruptReturn, savedRegs, pop_eq]

@[simp] theorem interruptReturn_readByte (a : Byte) : (interruptReturn s).readByte a = s.readByte a := by
  simp [State.readByte]

/-! ### The top of a cycle -/

/-- The top of a cycle is the poll, or the poll and one interrupt entry. -/
theorem topOfCycle_cases : topOfCycle s = timerPoll (timeInput s) s ∨
    ∃ i, topOfCycle s = interruptEntry i (timerPoll (timeInput s) s) := interruptCheck_cases _

@[simp] theorem topOfCycle_fl : (topOfCycle s).fl = s.fl := by
  rcases topOfCycle_cases s with h | ⟨i, h⟩ <;> simp [h]
@[simp] theorem topOfCycle_ir : (topOfCycle s).ir = s.ir := by
  rcases topOfCycle_cases s with h | ⟨i, h⟩ <;> simp [h]
@[simp] theorem topOfCycle_halted : (topOfCycle s).halted = s.halted := by
  rcases topOfCycle_cases s with h | ⟨i, h⟩ <;> simp [h]
@[simp] theorem topOfCycle_fault : (topOfCycle s).fault = s.fault := by
  rcases topOfCycle_cases s with h | ⟨i, h⟩ <;> simp [h]
@[simp] theorem topOfCycle_out : (topOfCycle s).out = s.out := by
  rcases topOfCycle_cases s with h | ⟨i, h⟩ <;> simp [h]

end Sys2Proof.Machine
end

