-- ==== Sys2Proof/Laws/PerInstr.lean ====
section
/-! SUPPORT. The per-instruction family `Parts`: an instruction is its opcode and its operand bytes, and its length is
the one its opcode byte gives. -/

namespace Sys2Proof.Laws.Parts

/-- The opcode and the operands of `i` make up `i`, and its opcode byte gives its length (30_encoding.md R70, R74). -/
def Statement (i : Instr) : Prop :=
  instrOf (i.operands.getD 0 0) (i.operands.getD 1 0) i.opcode = i ∧
    (encode i).length = instrLength (opcodeByte i.opcode)

theorem nop : Statement .nop := ⟨rfl, instrLength_nop.symm⟩

theorem hlt : Statement .hlt := ⟨rfl, instrLength_hlt.symm⟩

theorem ret : Statement .ret := ⟨rfl, instrLength_ret.symm⟩

theorem iret : Statement .iret := ⟨rfl, instrLength_iret.symm⟩

theorem push (ra : Byte) : Statement (.push ra) := ⟨rfl, instrLength_push.symm⟩

theorem pop (ra : Byte) : Statement (.pop ra) := ⟨rfl, instrLength_pop.symm⟩

theorem prn (ra : Byte) : Statement (.prn ra) := ⟨rfl, instrLength_prn.symm⟩

theorem pra (ra : Byte) : Statement (.pra ra) := ⟨rfl, instrLength_pra.symm⟩

theorem call (ra : Byte) : Statement (.call ra) := ⟨rfl, instrLength_call.symm⟩

theorem jmp (ra : Byte) : Statement (.jmp ra) := ⟨rfl, instrLength_jmp.symm⟩

theorem jeq (ra : Byte) : Statement (.jeq ra) := ⟨rfl, instrLength_jeq.symm⟩

theorem jne (ra : Byte) : Statement (.jne ra) := ⟨rfl, instrLength_jne.symm⟩

theorem ldi (ra imm : Byte) : Statement (.ldi ra imm) := ⟨rfl, instrLength_ldi.symm⟩

theorem st (ra rb : Byte) : Statement (.st ra rb) := ⟨rfl, instrLength_st.symm⟩

theorem add (ra rb : Byte) : Statement (.add ra rb) := ⟨rfl, instrLength_add.symm⟩

theorem sub (ra rb : Byte) : Statement (.sub ra rb) := ⟨rfl, instrLength_sub.symm⟩

theorem mul (ra rb : Byte) : Statement (.mul ra rb) := ⟨rfl, instrLength_mul.symm⟩

theorem div (ra rb : Byte) : Statement (.div ra rb) := ⟨rfl, instrLength_div.symm⟩

theorem mod (ra rb : Byte) : Statement (.mod ra rb) := ⟨rfl, instrLength_mod.symm⟩

theorem cmp (ra rb : Byte) : Statement (.cmp ra rb) := ⟨rfl, instrLength_cmp.symm⟩

end Sys2Proof.Laws.Parts
end

