-- ==== Sys2Proof/Laws/Step.lean ====
section
/-! SUPPORT. What a step can be: a stop, or one cycle that runs the decoded instruction or records UnknownOpcode. -/

namespace Sys2Proof.Machine

variable {s t : State}

theorem stopReason_eq_none : stopReason s = none ↔ Running s := by
  unfold stopReason Running
  cases s.halted <;> cases s.fault <;> simp

theorem step_running (h : Running s) : step s = runCycle (topOfCycle s) := by
  simp [step, stopReason_eq_none.mpr h]

theorem step_stopped {f : Fault} (h : stopReason s = some f) : step s = .fault f := by simp [step, h]

/-- A step that answers a next state ran one cycle of a running core. -/
theorem step_next (h : step s = .next t) : Running s ∧ runCycle (topOfCycle s) = .next t := by
  cases hr : stopReason s with
  | some f => rw [step_stopped hr] at h; cases h
  | none =>
    have hs := stopReason_eq_none.mp hr
    exact ⟨hs, step_running hs ▸ h⟩

/-- Everything one cycle can be: the decoded instruction at the state with IR written, or UnknownOpcode recorded. -/
theorem runCycle_cases (h : runCycle s = .next t) :
    (∃ i, decodeAtPc s = .ok i ∧ opcodeByte i.opcode = s.readByte s.pc ∧ exec i (fetch s) = .next t) ∨
    ((∀ o, opcodeByte o ≠ s.readByte s.pc) ∧ t = raise .unknownOpcode (s.readByte s.pc) s.pc (fetch s)) := by
  unfold runCycle at h
  cases hd : decodeAtPc s with
  | ok i => exact .inl ⟨i, rfl, opcode_of_decode hd, by simpa [hd] using h⟩
  | error e =>
    obtain ⟨rfl, ho⟩ := decode_eq_error.mp hd
    exact .inr ⟨ho, by simpa [hd] using h.symm⟩

@[simp] theorem fetch_reg (q : Reg) : (fetch s).reg q = s.reg q := rfl
@[simp] theorem fetch_pc : (fetch s).pc = s.pc := rfl
@[simp] theorem fetch_ir : (fetch s).ir = s.readByte s.pc := rfl
@[simp] theorem fetch_mem : (fetch s).mem = s.mem := rfl
@[simp] theorem fetch_halted : (fetch s).halted = s.halted := rfl
@[simp] theorem fetch_fault : (fetch s).fault = s.fault := rfl

end Sys2Proof.Machine
end

