-- ==== Sys2Proof/Tests/Slice0.lean ====
section
/-! SUPPORT. The model's own tests. Expected values come from spec/95_test_vectors.md (named in each comment) or from
the encoding table of spec/30_encoding.md R78, and each hypothesis of a statement has a witness here. -/

namespace Sys2Proof.Tests

open Sys2Proof.Machine

/-! ### Helpers -/

/-- A running core at PC `pc` with these registers, FL and cells, the timer at time 0. -/
def core (pc : Byte) (regs : Vector Byte 8) (fl : Byte) (mem : Memory) : State :=
  { State.reset with pc := pc, regs := regs, fl := fl, mem := mem, ir := 0, tRef := 0, time := 0 }

/-- The registers of reset with x0 and x1 set. -/
def xs (x0 x1 : Byte) : Vector Byte 8 := #v[x0, x1, 0, 0, 0, 0, 0, 0xF4]

/-- Whether an outcome is a next state with the property. -/
def nextIs (o : Host.Outcome State Fault Refusal) (p : State → Bool) : Bool :=
  match o with
  | .next t => p t
  | .fault _ => false
  | .refused _ => false

/-- Whether a decode gave this instruction. -/
def decodesTo (b₀ b₁ b₂ : Byte) (i : Instr) : Bool :=
  match decode b₀ b₁ b₂ with
  | .ok j => j == i
  | .error _ => false

/-! ### WellFormed refuses an ill-formed term, for each operand checked (30_encoding.md R73) -/

theorem test_wellFormed_refuses_op1_f1r : (Instr.push 8).wellFormed = false := by decide
theorem test_wellFormed_refuses_op1_f2ri : (Instr.ldi 8 5).wellFormed = false := by decide
theorem test_wellFormed_refuses_op1_f2rr : (Instr.st 255 0).wellFormed = false := by decide
theorem test_wellFormed_refuses_op2_f2rr : (Instr.div 0 9).wellFormed = false := by decide
theorem test_wellFormed_takes_any_immediate : (Instr.ldi 7 255).wellFormed = true := by decide

/-! ### Decoding: words written out from the binary column of 30_encoding.md R78 -/

theorem test_decode_f0 :
    decodesTo 0b00000000 0 0 .nop && decodesTo 0b00000001 9 9 .hlt && decodesTo 0b00010001 0 0 .ret &&
      decodesTo 0b00010011 1 2 .iret = true := by decide

theorem test_decode_f1r_plain :
    decodesTo 0b01000101 0b00000010 0 (.push 2) && decodesTo 0b01000110 0b00000100 0 (.pop 4) &&
      decodesTo 0b01000111 0b00000111 0 (.prn 7) && decodesTo 0b01001000 0b00000011 0 (.pra 3) = true := by decide

theorem test_decode_f1r_control :
    decodesTo 0b01010000 0b00000010 0 (.call 2) && decodesTo 0b01010100 0b00000010 0 (.jmp 2) &&
      decodesTo 0b01010101 0b00000010 0 (.jeq 2) && decodesTo 0b01010110 0b00000011 0 (.jne 3) = true := by decide

theorem test_decode_f2ri : decodesTo 0b10000010 0b00000000 0b00001100 (.ldi 0 12) = true := by decide

theorem test_decode_f2rr_st_add_sub :
    decodesTo 0b10000100 0b00000000 0b00000001 (.st 0 1) && decodesTo 0b10100000 0b00000111 0b00000001 (.add 7 1) &&
      decodesTo 0b10100001 0b00000011 0b00000011 (.sub 3 3) = true := by decide

theorem test_decode_f2rr_mul_div_mod_cmp :
    decodesTo 0b10100010 0b00000001 0b00000001 (.mul 1 1) && decodesTo 0b10100011 0b00000010 0b00000010 (.div 2 2) &&
      decodesTo 0b10100100 0b00000000 0b00000001 (.mod 0 1) &&
      decodesTo 0b10100111 0b00000100 0b00000100 (.cmp 4 4) = true := by decide

/-- DEC-1 to DEC-4: unregistered opcodes are rejected by name. -/
theorem test_decode_rejects :
    decode 0x02 0 0 = .error (.unknownOpcode 0x02) ∧ decode 0xC0 0 0 = .error (.unknownOpcode 0xC0) ∧
      decode 0xFF 0 0 = .error (.unknownOpcode 0xFF) ∧ decode 0xA8 0 1 = .error (.unknownOpcode 0xA8) :=
  ⟨rfl, rfl, rfl, rfl⟩

/-- 30_encoding.md R83: LDI R0,12 is 82 00 0C; numbered as the table numbers bits it is 0x0C0082. -/
theorem test_encode_ldi : encode (.ldi 0 12) = [0x82, 0x00, 0x0C] := by decide
theorem test_decodeTableWord_ldi : decodeTableWord 24 0x0C0082 = some (.ldi 0 12) := by decide
theorem test_decodeTableWord_cuts_at_nbits : decodeTableWord 8 0x0102A0 = some (.add 0 0) := by decide

/-! ### The ALU -/

/-- ALU-1. -/
theorem test_add_wraps : nextIs (exec (.add 0 1) (core 0 (xs 200 100) 0xF8 []))
    (fun t => t.reg 0 == 44 && t.reg 1 == 100 && t.pc == 3 && t.fl == 0xF8) = true := by decide

/-- ALU-3. -/
theorem test_add_moves_the_stack_pointer : nextIs (exec (.add 7 1) (core 0 (xs 0 0x0C) 0xF8 []))
    (fun t => t.reg 7 == 0) = true := by decide

/-- ALU-4. -/
theorem test_sub_wraps : nextIs (exec (.sub 0 1) (core 0 (xs 5 10) 0xF8 [])) (fun t => t.reg 0 == 251) = true := by
  decide

/-- ALU-6. -/
theorem test_mul_keeps_the_low_byte : nextIs (exec (.mul 0 1) (core 0 (xs 255 255) 0xF8 []))
    (fun t => t.reg 0 == 1) = true := by decide

/-- ALU-9. -/
theorem test_div_truncates : nextIs (exec (.div 0 1) (core 0 (xs 7 2) 0xF8 [])) (fun t => t.reg 0 == 3) = true := by
  decide

/-- ALU-13. -/
theorem test_div_by_zero : nextIs (exec (.div 0 1) (core 0 (xs 7 0) 0xF8 []))
    (fun t => t.fault == some ⟨.divisionByZero, 0xA3, 0⟩ && t.reg 0 == 7 && t.pc == 0) = true := by decide

/-- ALU-16. -/
theorem test_mod_of_a_smaller_value : nextIs (exec (.mod 0 1) (core 0 (xs 3 7) 0xF8 []))
    (fun t => t.reg 0 == 3) = true := by decide

/-- ALU-17. -/
theorem test_mod_by_zero : nextIs (exec (.mod 0 1) (core 0 (xs 7 0) 0xF8 []))
    (fun t => t.fault == some ⟨.divisionByZero, 0xA4, 0⟩ && t.pc == 0) = true := by decide

/-- ALU-18. -/
theorem test_cmp_less : nextIs (exec (.cmp 0 1) (core 0 (xs 3 9) 0xF8 [])) (fun t => t.fl == 0xFC) = true := by decide

/-- ALU-21. -/
theorem test_cmp_is_unsigned : nextIs (exec (.cmp 0 1) (core 0 (xs 0xFF 0) 0xA5 [])) (fun t => t.fl == 0xA2) = true := by
  decide

/-! ### Stack and calls -/

/-- STK-2: the stack pointer wraps down. -/
theorem test_push_wraps : nextIs (exec (.push 1) (core 0 #v[0, 0x99, 0, 0, 0, 0, 0, 0] 0xF8 []))
    (fun t => t.reg 7 == 0xFF && t.readByte 0xFF == 0x99 && t.pc == 2) = true := by decide

/-- STK-5. -/
theorem test_push_r7 : nextIs (exec (.push 7) (core 0 (xs 0 0) 0xF8 []))
    (fun t => t.reg 7 == 0xF3 && t.readByte 0xF3 == 0xF3) = true := by decide

/-- STK-2b: the stack pointer wraps up. -/
theorem test_pop_wraps : nextIs (exec (.pop 1) (core 0 #v[0, 0, 0, 0, 0, 0, 0, 0xFF] 0xF8 [(0xFF, 0x5A)]))
    (fun t => t.reg 1 == 0x5A && t.reg 7 == 0 && t.pc == 2) = true := by decide

/-- STK-6. -/
theorem test_pop_r7 : nextIs (exec (.pop 7) (core 0 #v[0, 0, 0, 0, 0, 0, 0, 0xF3] 0xF8 [(0xF3, 0x50)]))
    (fun t => t.reg 7 == 0x51 && t.pc == 2) = true := by decide

/-- STK-4: the return address wraps. -/
theorem test_call_wraps : nextIs (exec (.call 2) (core 0xFE #v[0, 0, 0x40, 0, 0, 0, 0, 0xF4] 0xF8 [(0xF3, 0xEE)]))
    (fun t => t.readByte 0xF3 == 0 && t.reg 7 == 0xF3 && t.pc == 0x40) = true := by decide

/-- STK-7. -/
theorem test_call_r7 : nextIs (exec (.call 7) (core 0 (xs 0 0) 0xF8 []))
    (fun t => t.readByte 0xF3 == 2 && t.pc == 0xF3) = true := by decide

/-- STK-3b. -/
theorem test_ret : nextIs (exec .ret (core 0x15 #v[0, 0, 0, 0, 0, 0, 0, 0xF3] 0xF8 [(0xF3, 0x0B)]))
    (fun t => t.pc == 0x0B && t.reg 7 == 0xF4) = true := by decide

/-! ### Branches -/

/-- BR-1. -/
theorem test_jmp : nextIs (exec (.jmp 2) (core 0x14 #v[0, 0, 0x0F, 0, 0, 0, 0, 0xF4] 0xF8 []))
    (fun t => t.pc == 0x0F) = true := by decide

/-- BR-3. -/
theorem test_jeq_taken : nextIs (exec (.jeq 2) (core 0x14 #v[0, 0, 0x30, 0, 0, 0, 0, 0xF4] 0xF9 []))
    (fun t => t.pc == 0x30) = true := by decide

/-- BR-9: only bit 0 is read. -/
theorem test_jeq_not_taken : nextIs (exec (.jeq 2) (core 0x14 #v[0, 0, 0x30, 0, 0, 0, 0, 0xF4] 0x06 []))
    (fun t => t.pc == 0x16) = true := by decide

/-- BR-5. -/
theorem test_jne_taken : nextIs (exec (.jne 3) (core 0x14 #v[0, 0, 0, 0x0C, 0, 0, 0, 0xF4] 0xFA []))
    (fun t => t.pc == 0x0C) = true := by decide

/-- BR-6. -/
theorem test_jne_not_taken : nextIs (exec (.jne 3) (core 0x14 #v[0, 0, 0, 0x0C, 0, 0, 0, 0xF4] 0x01 []))
    (fun t => t.pc == 0x16) = true := by decide

/-- BR-8: the operand is checked though the branch would not be taken. -/
theorem test_jeq_checks_its_operand : nextIs (exec (.jeq 9) (core 0x14 (xs 0 0) 0xF8 []))
    (fun t => t.fault == some ⟨.invalidRegister, 0x55, 0x14⟩ && t.pc == 0x14) = true := by decide

/-! ### Interrupts and the timer -/

/-- The start of INT-1. -/
def int1 : State := core 0x30 #v[0x10, 0x11, 0x12, 0x13, 0x14, 1, 1, 0xF4] 0xFA [(0xF8, 0x40)]

/-- INT-1. -/
theorem test_entry_frame :
    (interruptCheck int1).mem = [(0xED, 0x14), (0xEE, 0x13), (0xEF, 0x12), (0xF0, 0x11), (0xF1, 0x10), (0xF2, 0xFA),
      (0xF3, 0x30), (0xF8, 0x40)] ∧ (interruptCheck int1).pc = 0x40 ∧ (interruptCheck int1).reg 7 = 0xEB := by decide

/-- INT-5: the lowest line is taken and the other discarded. -/
theorem test_lowest_line : pendingLine (core 0x30 #v[0, 0, 0, 0, 0, 0x06, 0x0C, 0xF4] 0xF8 []) = some 2 ∧
    (interruptCheck (core 0x30 #v[0, 0, 0, 0, 0, 0x06, 0x0C, 0xF4] 0xF8 [])).reg 6 = 0 := by decide

/-- INT-6 to INT-9: the vector is read after the pushes. -/
theorem test_vector_overwritten :
    ([0xF9, 0xFA, 0x01, 0x02] : List Byte).map (fun sp =>
      (interruptCheck (core 0x30 #v[0, 0, 0, 0, 0, 1, 1, sp] 0xF8 [(0xF8, 0x40)])).pc) = [0x30, 0xF8, 0x00, 0x40] := by
  decide

/-- INT-2 with INT-1. -/
theorem test_iret_round_trip : nextIs (exec .iret (interruptCheck int1))
    (fun t => t.reg 0 == 0x10 && t.reg 4 == 0x14 && t.reg 6 == 0 && t.reg 7 == 0xF4 && t.fl == 0xFA &&
      t.pc == 0x30) = true := by decide

/-- INT-13: IRET with no interrupt in progress. -/
theorem test_iret_pops_what_is_there : nextIs (exec .iret (core 0x40 (xs 0 0) 0xF8
      [(0xF4, 1), (0xF5, 2), (0xF6, 3), (0xF7, 4), (0xF8, 5), (0xF9, 6), (0xFA, 7), (0xFB, 8), (0xFC, 9)]))
    (fun t => t.reg 6 == 1 && t.reg 4 == 3 && t.reg 3 == 4 && t.reg 2 == 5 && t.reg 1 == 6 && t.reg 0 == 7 &&
      t.fl == 8 && t.pc == 9 && t.reg 7 == 0xFD) = true := by decide

/-- INT-3: a tick sets bit 0 of x[6] and moves T_ref. -/
theorem test_poll_tick : (timerPoll Config.timerPeriod (core 0x30 (xs 0 0) 0xF8 [])).reg 6 = 1 := by
  have h : isTick Config.timerPeriod (core 0x30 (xs 0 0) 0xF8 []) = true :=
    (isTick_iff _ _).mpr (Nat.le_of_eq (Nat.zero_add _))
  rw [timerPoll_reg, h]
  decide

/-! ### Data movement, output, NOP, HLT -/

/-- DAT-3: the operand fetch and the advance wrap. -/
theorem test_ldi_wraps : nextIs (step (core 0xFE (xs 0 0) 0xF8 [(0, 0x77), (0xFE, 0x82)]))
    (fun t => t.reg 0 == 0x77 && t.pc == 1) = true := by decide

/-- DAT-4. -/
theorem test_ldi_invalid_register : nextIs (step (core 0 (xs 0 0) 0xF8 [(0, 0x82), (1, 8), (2, 5)]))
    (fun t => t.fault == some ⟨.invalidRegister, 0x82, 0⟩ && t.pc == 0) = true := by decide

/-- DAT-5. -/
theorem test_st_writes_the_vector_cell : nextIs (exec (.st 0 1) (core 0 (xs 0xF8 0x18) 0xF8 []))
    (fun t => t.mem == [(0xF8, 0x18)] && t.pc == 3) = true := by decide

/-- Writing 0 takes a cell off the list (10_state.md R32: an unlisted cell reads 0). -/
theorem test_st_zero : nextIs (exec (.st 0 1) (core 0 (xs 0xF8 0) 0xF8 [(0xF8, 0x18)])) (fun t => t.mem == []) = true := by
  decide

/-- DAT-8 and DEC-6. -/
theorem test_prn : nextIs (exec (.prn 7) (core 0 (xs 0 0) 0xF8 []))
    (fun t => t.out == [.dec 0xF4] && t.pc == 2) = true := by decide

/-- DAT-9. -/
theorem test_pra : nextIs (exec (.pra 0) (core 0 (xs 0x41 0) 0xF8 []))
    (fun t => t.out == [.chr 0x41] && t.pc == 2) = true := by decide

/-- 45_data_plain.md R183: Chr(0x41) is printed as `A`, and then the host's terminator. -/
theorem test_pra_prints_a : hostText (.chr 0x41) = "A" ++ Config.praTerminator := rfl

/-- DAT-10, on the empty memory of reset. -/
theorem test_nop_at_reset : nextIs (step State.reset) (fun t => t.pc == 1 && t.reg 7 == 0xF4) = true := by decide

/-- DAT-11. -/
theorem test_hlt : nextIs (step (core 0x0B (xs 0 0) 0xF8 [(0x0B, 1)]))
    (fun t => t.halted && t.pc == 0x0C) = true := by decide

/-- DEC-1: an unregistered opcode. -/
theorem test_unknown_opcode : nextIs (step (core 0 (xs 0 0) 0xF8 [(0, 2)]))
    (fun t => t.fault == some ⟨.unknownOpcode, 2, 0⟩ && t.pc == 0) = true := by decide

/-- DEC-7 and 60_exceptions.md R230: a short image is loaded, an overlong one refused. -/
theorem test_load : nextIs (loadPort [0x82, 0, 0x0C] State.reset) (fun t => t.mem == [(0, 0x82), (2, 0x0C)]) = true := by
  decide
theorem test_load_overlong : loadPort (List.replicate 257 0) State.reset = .refused .imageTooLong :=
  if_neg (by rw [List.length_replicate]; decide)

/-- The word placed at PC is the one the first step after reset runs. -/
theorem test_withFetchWord : nextIs (step (State.reset.withFetchWord 24 0x0C0082))
    (fun t => t.reg 0 == 12 && t.pc == 3) = true := by decide

/-! ### Witnesses: a state and operands that meet the hypotheses of each statement that has some -/

/-- A core about to run DIV R0,R1 with x1 = 0. -/
def divZero : State := core 0 (xs 7 0) 0xF8 [(0, 0xA3), (2, 1)]

theorem witness_EncodeInvertsDecode : decode 0xA0 7 1 = .ok (.add 7 1) := rfl

theorem witness_RegisteredOpcodesAreExactlyTheTable :
    decode 0x50 2 0 = .ok (.call 2) ∧ decode 0xA0 7 1 = .ok (.add 7 1) := ⟨rfl, rfl⟩

theorem witness_StepRunsTheDecodedInstruction :
    Running State.reset ∧ pendingLine (timerPoll (timeInput State.reset) State.reset) = none ∧
      decodesTo ((topOfCycle State.reset).readByte (topOfCycle State.reset).pc)
        ((topOfCycle State.reset).readByte ((topOfCycle State.reset).pc + 1))
        ((topOfCycle State.reset).readByte ((topOfCycle State.reset).pc + 2)) .nop = true :=
  ⟨⟨rfl, rfl⟩, by decide, by decide⟩

theorem witness_StepAnswersExactlyWhileRunning :
    State.reset.halt.halted = true ∧
      (raise .divisionByZero 0xA3 0 State.reset).halted = false ∧
      (raise .divisionByZero 0xA3 0 State.reset).fault = some ⟨.divisionByZero, 0xA3, 0⟩ := ⟨rfl, rfl, rfl⟩

theorem witness_UnregisteredOpcodeRaisesUnknownOpcode :
    Running (core 0 (xs 0 0) 0xF8 [(0, 2)]) ∧
      (topOfCycle (core 0 (xs 0 0) 0xF8 [(0, 2)])).readByte (topOfCycle (core 0 (xs 0 0) 0xF8 [(0, 2)])).pc = 2 :=
  ⟨⟨rfl, rfl⟩, by decide⟩

theorem witness_CountFieldThreeRaisesUnknownOpcode :
    Running (core 0 (xs 0 0) 0xF8 [(0, 0xC0)]) ∧
      ((topOfCycle (core 0 (xs 0 0) 0xF8 [(0, 0xC0)])).readByte
        (topOfCycle (core 0 (xs 0 0) 0xF8 [(0, 0xC0)])).pc).toNat / 64 = 3 := ⟨⟨rfl, rfl⟩, by decide⟩

theorem witness_RegisterOperandAboveSevenRaisesInvalidRegister :
    (8 : Byte) ∈ (Instr.jeq 8).registerOperands ∧ 7 < (8 : Byte).toNat ∧ (Instr.div 0 1).wellFormed = true ∧
      divZero.fault = none ∧ nextIs (exec (.div 0 1) divZero) (fun t => t.fault.isSome) = true := by decide

theorem witness_FatalErrorsArePrecise :
    Running divZero ∧ nextIs (step divZero) (fun t => t.fault == some ⟨.divisionByZero, 0xA3, 0⟩) = true :=
  ⟨⟨rfl, rfl⟩, by decide⟩

theorem witness_Div_and_Mod : (core 0 (xs 7 2) 0xF8 []).reg 1 ≠ 0 ∧ divZero.reg 1 = 0 := by decide

theorem witness_UnsupportedAluOperationIsTheAluLastCase :
    (0xA8 : Byte) ∉ ([0xA0, 0xA1, 0xA2, 0xA3, 0xA4, 0xA7] : List Byte) ∧ divZero.fault = none ∧
      nextIs (exec (.div 0 1) divZero) (fun t => t.fault.isSome) = true := by decide

theorem witness_PopLoadsTheRegisterBeforeTheIncrement :
    (2 : Reg) ≠ 7 ∧ (4 : Reg) ≠ 7 ∧ nextIs (exec (.push (regByte 2)) (core 0 (xs 0 0) 0xF8 [])) (fun _ => true) = true := by
  decide

theorem witness_RetPopsPcAndReturnsAfterTheCall :
    ∃ t u : State, exec (.call (regByte 2)) (core 9 #v[0, 0, 0x15, 0, 0, 0, 0, 0xF4] 0xF8 []) = .next t ∧
      u.reg 7 = t.reg 7 ∧ u.readByte (u.reg 7) = t.readByte (t.reg 7) := ⟨_, _, rfl, rfl, rfl⟩

theorem witness_ConditionalBranchesTestOnlyTheEqualBit :
    (core 0 (xs 0 0) 0xF9 []).fl.getLsbD 0 = true ∧ (core 0 (xs 0 0) 0xFA []).fl.getLsbD 0 = false := by decide

/-- For the clause on the vector: no push writes 0xF8 at x[7] = 0x02, just outside the range that does (INT-9). -/
theorem witness_InterruptEntryBuildsTheFrameAndVectors :
    ∀ k : Nat, k ≤ 9 → 1 ≤ k → (core 0x30 #v[0, 0, 0, 0, 0, 1, 1, 0x02] 0xF8 [(0xF8, 0x40)]).reg 7 -
      BitVec.ofNat 8 k ≠ 0xF8 := by decide

/-- Line 1 alone is enabled and pending, and its handler at 0x40 is a NOP. -/
def int2 : State := core 0x30 #v[0, 0, 0, 0, 0, 2, 2, 0xF4] 0xF8 [(0xF8, 0x40)]

/-- For the clause on the fetch: the interrupt is taken and the handler's NOP runs in the same cycle. -/
theorem witness_InterruptEntry_then_fetch :
    Running int2 ∧ topOfCycle int2 = interruptEntry 1 (timerPoll (timeInput int2) int2) ∧
      nextIs (step int2) (fun t => t.pc == 0x41 && t.reg 7 == 0xEB) = true := by
  refine ⟨⟨rfl, rfl⟩, ?_, ?_⟩
  · unfold topOfCycle timerPoll
    cases isTick (timeInput int2) int2 <;> rfl
  · unfold step topOfCycle timerPoll
    cases isTick (timeInput int2) int2 <;> decide

theorem witness_InterruptCheckTakesTheLowestPendingLine :
    (State.reset.reg 5 &&& State.reset.reg 6 = 0) ∧
      ((core 0x30 #v[0, 0, 0, 0, 0, 0x06, 0x0C, 0xF4] 0xF8 []).reg 5 &&&
        (core 0x30 #v[0, 0, 0, 0, 0, 0x06, 0x0C, 0xF4] 0xF8 []).reg 6).getLsbD (2 : Reg) = true ∧
      ∀ j : Reg, j < 2 → ((core 0x30 #v[0, 0, 0, 0, 0, 0x06, 0x0C, 0xF4] 0xF8 []).reg 5 &&&
        (core 0x30 #v[0, 0, 0, 0, 0, 0x06, 0x0C, 0xF4] 0xF8 []).reg 6).getLsbD j = false := by decide

/-- INT-1 for a pending line, INT-4 for a tick with line 0 enabled. -/
theorem witness_PendingInterruptIsTakenBeforeTheFetch :
    int1.reg 5 &&& int1.reg 6 ≠ 0 ∧
      ({ core 0x30 #v[0, 0, 0, 0, 0, 1, 0, 0xF4] 0xF8 [] with time := Config.timerPeriod } : State).tRef +
          Config.timerPeriod ≤
        timeInput { core 0x30 #v[0, 0, 0, 0, 0, 1, 0, 0xF4] 0xF8 [] with time := Config.timerPeriod } ∧
      (core 0x30 #v[0, 0, 0, 0, 0, 1, 0, 0xF4] 0xF8 []).reg 5 = 1 :=
  ⟨by decide, by simp [timeInput, core], by decide⟩

theorem witness_MaskZeroTakesNoInterrupt : State.reset.reg 5 = 0 := by decide

theorem witness_InterruptRoundTripRestoresTheContext :
    ∃ e u : State, e = interruptEntry 0 int1 ∧ u.reg 7 = e.reg 7 ∧
      ∀ k : Nat, 1 ≤ k → k ≤ 9 →
        u.readByte (int1.reg 7 - BitVec.ofNat 8 k) = e.readByte (int1.reg 7 - BitVec.ofNat 8 k) :=
  ⟨_, _, rfl, rfl, fun _ _ _ => rfl⟩

theorem witness_TimerPollSetsStatusBitZeroOnATick :
    (core 0 (xs 0 0) 0xF8 []).tRef + Config.timerPeriod ≤ Config.timerPeriod ∧
      0 < (core 0 (xs 0 0) 0xF8 []).tRef + Config.timerPeriod := by
  simp [core, Config.timerPeriod]

theorem witness_RegistersChangeOnlyByTheirWriters :
    nextIs (exec (.add 0 1) (core 0 (xs 200 100) 0xF8 []))
      (fun t => t.reg 0 != (core 0 (xs 200 100) 0xF8 []).reg 0) = true ∧ (4 : Reg) ∉ ([5, 6, 7] : List Reg) := by decide

theorem witness_OtherInstructionsNeitherReadNorWriteFlags :
    (Instr.add 0 1).opcode ∉ [Opcode.cmp, .iret, .jeq, .jne] ∧
      nextIs (exec (.add 0 1) State.reset) (fun _ => true) = true := by decide

theorem witness_MemoryChangesOnlyByStores :
    nextIs (exec (.st 0 1) (core 0 (xs 0xF8 0x18) 0xF8 []))
      (fun t => t.readByte 0xF8 != (core 0 (xs 0xF8 0x18) 0xF8 []).readByte 0xF8) = true := by decide

theorem witness_OutLogOnlyGrowsByPrnAndPra :
    nextIs (exec .nop State.reset) (fun _ => true) = true ∧ Instr.nop.opcode ∉ [Opcode.prn, .pra] ∧
      nextIs (step State.reset) (fun _ => true) = true := by decide

theorem witness_HaltedIsSetByHltAlone :
    nextIs (exec .hlt State.reset) (fun t => t.halted) = true ∧ Instr.nop ≠ .hlt ∧
      nextIs (exec .nop State.reset) (fun t => !t.halted) = true := by decide

theorem witness_InstructionsNeitherReadNorWriteTheTimer :
    nextIs (exec (.ldi 0 1) State.reset) (fun _ => true) = true := by decide

theorem witness_EveryStepKeepsTheStateInvariant :
    Inv State.reset ∧ nextIs (step State.reset) (fun _ => true) = true :=
  ⟨⟨by decide, fun h => by simp [State.reset] at h, le_refl _⟩, by decide⟩

theorem witness_CanonicalMemoriesAreEqualWhenTheyReadAlike :
    Memory.wf [(0xF3, 1), (0xF8, 0x18)] = true ∧
      ∀ a : Byte, Memory.read [(0xF3, 1), (0xF8, 0x18)] a = Memory.read [(0xF3, 1), (0xF8, 0x18)] a :=
  ⟨by decide, fun _ => rfl⟩

theorem witness_LoadPortStoresTheImageFromZero :
    (List.replicate 256 (1 : Byte)).length ≤ 256 ∧ 256 < (List.replicate 257 (1 : Byte)).length :=
  ⟨by rw [List.length_replicate], by rw [List.length_replicate]; decide⟩

theorem witness_RunOnAStoppedCoreRunsNoCycle :
    ¬ Running State.reset.halt ∧ nextIs (step State.reset) (fun _ => true) = true :=
  ⟨fun h => by simpa using h.1, by decide⟩

theorem witness_WithFetchWordRunsTheTableWord : decodeTableWord 8 0x45 = some (.push 0) := by decide

end Sys2Proof.Tests
end

section
/-! SUPPORT. What one instruction leaves unchanged, read off `Effect`: the frames the statements of 10_state.md need. -/

namespace Sys2Proof.Machine

variable {i : Instr} {s t : State}

/-! ### `Effect` is exactly what `exec` answers -/

/-- The converse of `exec_effect`. -/
theorem Effect.exec_eq (h : Effect i s t) : exec i s = .next t := by
  cases h with
  | nop => exact exec_nop s
  | hlt => exact exec_hlt s
  | ret => exact exec_ret s
  | iret => exact exec_iret s
  | push a => exact exec_push s a
  | pop a => exact exec_pop s a
  | prn a => exact exec_prn s a
  | pra a => exact exec_pra s a
  | call a => exact exec_call s a
  | jmp a => exact exec_jmp s a
  | jeq a => exact exec_jeq s a
  | jne a => exact exec_jne s a
  | ldi a v => exact exec_ldi s a v
  | st a b => exact exec_st s a b
  | add a b => exact exec_add s a b
  | sub a b => exact exec_sub s a b
  | mul a b => exact exec_mul s a b
  | div a b _ h0 => exact exec_div s a b h0
  | mod a b _ h0 => exact exec_mod s a b h0
  | cmp a b => exact exec_cmp s a b
  | div_zero a b _ h0 => exact exec_div_zero s a b h0
  | mod_zero a b _ h0 => exact exec_mod_zero s a b h0
  | invalidRegister _ hw => exact exec_illFormed s hw

/-! ### One field at a time -/

/-- The timer reference and the model's time fields are no instruction's (60_exceptions.md R212). -/
theorem Effect.timer_eq (h : Effect i s t) : t.tRef = s.tRef ∧ t.time = s.time ∧ t.polls = s.polls := by
  cases h <;> simp [pop_eq]

/-- Only HLT writes HALTED (10_state.md R34). -/
theorem Effect.halted_eq (h : Effect i s t) (hi : i ≠ .hlt) : t.halted = s.halted := by
  cases h with
  | hlt => exact absurd rfl hi
  | _ => simp [pop_eq]

/-- No instruction sets HALTED and records a fault at once: HLT raises nothing. -/
theorem Effect.halted_eq_or_fault_eq (h : Effect i s t) : t.halted = s.halted ∨ t.fault = s.fault := by
  cases h with
  | hlt => exact .inr rfl
  | _ => simp [pop_eq]

/-- Only CMP and IRET write FL (10_state.md R28). -/
theorem Effect.fl_eq (h : Effect i s t) (hi : i.opcode ∉ [Opcode.cmp, .iret]) : t.fl = s.fl := by
  cases h with
  | cmp | iret => simp [Instr.opcode] at hi
  | _ => simp [pop_eq]

/-- Only PRN and PRA write OUTLOG (10_state.md R37). -/
theorem Effect.out_eq (h : Effect i s t) (hi : i.opcode ∉ [Opcode.prn, .pra]) : t.out = s.out := by
  cases h with
  | prn | pra => simp [Instr.opcode] at hi
  | _ => simp [pop_eq]

/-- Every instruction appends at most one event to OUTLOG (10_state.md R37). -/
theorem Effect.out_append (h : Effect i s t) : ∃ es, t.out = s.out ++ es ∧ es.length ≤ 1 := by
  by_cases hi : i.opcode ∉ [Opcode.prn, .pra]
  · exact ⟨[], by simp [h.out_eq hi], by simp⟩
  · cases h with
    | prn a => exact ⟨[.dec (s.reg a)], by simp, le_refl _⟩
    | pra a => exact ⟨[.chr (s.reg a)], by simp, le_refl _⟩
    | invalidRegister => exact ⟨[], by simp, by simp⟩
    | _ => simp [Instr.opcode] at hi

/-- Every instruction keeps memory in its canonical form: PUSH, CALL and ST write it by `MemWrite`, the others not. -/
theorem Effect.memWf (h : Effect i s t) (hm : s.mem.wf = true) : t.mem.wf = true := by
  cases h with
  | push | call => exact push_memWf hm _
  | st => exact Memory.wf_write hm _ _
  | _ => simpa [pop_eq] using hm

/-! ### Registers -/

theorem eq_of_setReg_reg_ne {a r : Reg} {v : Byte} (h : (s.setReg a v).reg r ≠ s.reg r) : r = a :=
  not_imp_comm.mp (fun hr => setReg_reg_ne s hr v) h

/-- The instructions that write a register, and which one (10_state.md R23). -/
theorem Effect.writer_of_reg_ne (h : Effect i s t) {r : Reg} (hr : t.reg r ≠ s.reg r) :
    (∃ b, i ∈ [Instr.add (regByte r) b, .sub (regByte r) b, .mul (regByte r) b, .div (regByte r) b,
      .mod (regByte r) b, .ldi (regByte r) b, .pop (regByte r)]) ∨
    (r = SP ∧ i.opcode ∈ [Opcode.pop, .push, .call, .ret]) ∨ i = .iret := by
  cases h with
  | iret => exact .inr (.inr rfl)
  | push | call | ret =>
    have hsp : r = SP := by
      by_contra hsp
      simp [pop_eq, hsp] at hr
    exact .inr (.inl ⟨hsp, by simp [Instr.opcode]⟩)
  | pop a =>
    by_cases hsp : r = SP
    · exact .inr (.inl ⟨hsp, by simp [Instr.opcode]⟩)
    · obtain rfl : r = a := eq_of_setReg_reg_ne (by simpa [hsp] using hr)
      exact .inl ⟨0, by simp⟩
  | ldi a v =>
    obtain rfl : r = a := eq_of_setReg_reg_ne hr
    exact .inl ⟨v, by simp⟩
  | add a b | sub a b | mul a b | div a b | mod a b =>
    obtain rfl : r = a := eq_of_setReg_reg_ne hr
    exact .inl ⟨regByte b, by simp⟩
  | _ => simp at hr

/-! ### Two runs: what an instruction does not read -/

/-- Other values of the timer reference and of the model's time fields. -/
def State.setTimer (s : State) (ref now n : Nat) : State := { s with tRef := ref, time := now, polls := n }

theorem popInto_setTimer (ref now n : Nat) (r : Reg) :
    popInto r (s.setTimer ref now n) = (popInto r s).setTimer ref now n := rfl

/-- IRET's pops pass the timer by. -/
theorem interruptReturn_setTimer (ref now n : Nat) :
    interruptReturn (s.setTimer ref now n) = (interruptReturn s).setTimer ref now n := by
  have hpops : savedRegs.reverse.foldl (fun u r => popInto r u) (s.setTimer ref now n) =
      (savedRegs.reverse.foldl (fun u r => popInto r u) s).setTimer ref now n :=
    List.foldl_hom (State.setTimer · ref now n) fun u r => popInto_setTimer (s := u) ref now n r
  simp only [interruptReturn, hpops]
  generalize savedRegs.reverse.foldl (fun u r => popInto r u) s = u
  rfl

/-- With other values of the timer reference and of the time fields, an instruction has the same effect
(60_exceptions.md R212). -/
theorem Effect.setTimer (h : Effect i s t) (ref now n : Nat) :
    Effect i (s.setTimer ref now n) (t.setTimer ref now n) := by
  cases h with
  | iret =>
    rw [← interruptReturn_setTimer]
    exact .iret _
  | _ => constructor <;> assumption

/-- With another FL, an instruction other than CMP, IRET, JEQ and JNE has the same effect (10_state.md R28). -/
theorem Effect.setFl (h : Effect i s t) (hi : i.opcode ∉ [Opcode.cmp, .iret, .jeq, .jne]) (f : Byte) :
    Effect i (s.setFl f) (t.setFl f) := by
  cases h with
  | cmp | iret | jeq | jne => simp [Instr.opcode] at hi
  | _ => constructor <;> assumption

end Sys2Proof.Machine
end

section
/-! SUPPORT. What one step leaves unchanged: the step in terms of `Effect`, the invariant, IR, and a stopped core. -/

namespace Sys2Proof.Machine

variable {s t : State}

@[simp] theorem fetch_out : (fetch s).out = s.out := rfl

/-- A step that answers a next state has, at the state the top of the cycle left with IR written, the effect of one
instruction, or records UnknownOpcode there. -/
theorem step_effect (h : step s = .next t) : Running s ∧
    ((∃ i, Effect i (fetch (topOfCycle s)) t) ∨
      ∃ opcode addr, t = raise .unknownOpcode opcode addr (fetch (topOfCycle s))) := by
  obtain ⟨hrun, hcycle⟩ := step_next h
  refine ⟨hrun, ?_⟩
  rcases runCycle_cases hcycle with ⟨i, -, -, hi⟩ | ⟨-, ht⟩
  · exact .inl ⟨i, exec_effect hi⟩
  · exact .inr ⟨_, _, ht⟩

/-! ### The invariant -/

theorem Inv.timerPoll {now : Nat} (h : Inv s) (hnow : s.time ≤ now) : Inv (timerPoll now s) where
  memWf := h.memWf
  oneStop := h.oneStop
  tRefPast := by
    rw [timerPoll_tRef, timerPoll_time]
    split
    · exact le_refl now
    · exact h.tRefPast.trans hnow

theorem Inv.interruptEntry (line : Reg) (h : Inv s) : Inv (interruptEntry line s) where
  memWf := interruptEntry_memWf line h.memWf
  oneStop := by simpa using h.oneStop
  tRefPast := by simpa using h.tRefPast

theorem Inv.topOfCycle (h : Inv s) : Inv (topOfCycle s) := by
  have hp := h.timerPoll (time_le_timeInput s)
  rcases topOfCycle_cases s with e | ⟨line, e⟩ <;> rw [e]
  · exact hp
  · exact hp.interruptEntry line

theorem Inv.fetch (h : Inv s) : Inv (fetch s) := ⟨h.memWf, h.oneStop, h.tRefPast⟩

/-- A fatal error on a core that is not halted keeps the invariant. -/
theorem Inv.raise (h : Inv s) (hh : s.halted = false) (kind : FaultKind) (opcode addr : Byte) :
    Inv (raise kind opcode addr s) :=
  ⟨h.memWf, fun ht => by simp [hh] at ht, h.tRefPast⟩

/-- An instruction of a running core keeps the invariant. -/
theorem Inv.effect {i : Instr} (h : Inv s) (hrun : Running s) (he : Effect i s t) : Inv t where
  memWf := he.memWf h.memWf
  oneStop ht := by
    obtain ⟨hhalted, hfault⟩ := hrun
    rcases he.halted_eq_or_fault_eq with e | e
    · simp [e, hhalted] at ht
    · exact e.trans hfault
  tRefPast := by
    obtain ⟨hRef, hTime, -⟩ := he.timer_eq
    exact hRef ▸ hTime ▸ h.tRefPast

/-! ### The instruction register -/

theorem topOfCycle_setIr (b : Byte) : topOfCycle (s.setIr b) = (topOfCycle s).setIr b := by
  have hpoll : timerPoll (timeInput (s.setIr b)) (s.setIr b) = (timerPoll (timeInput s) s).setIr b := rfl
  have hline : ∀ u : State, pendingLine (u.setIr b) = pendingLine u := fun _ => rfl
  simp only [topOfCycle, interruptCheck, hpoll, hline]
  split <;> rfl

/-- The fetch writes IR before the rest of the cycle (40_execution_engine.md R102). -/
theorem runCycle_setIr (b : Byte) : runCycle (s.setIr b) = runCycle s := rfl

/-! ### A stopped core -/

/-- On a stopped core no cycle runs, however many are asked for (40_execution_engine.md R101). -/
theorem runCycles_stopped {f : Fault} (h : stopReason s = some f) (n : Nat) : runCycles n s = s := by
  cases n with
  | zero => rfl
  | succ n => simp [runCycles, step_stopped h]

theorem stopReason_halted (h : s.halted = true) : stopReason s = some .halted := by
  simp [stopReason, h]

end Sys2Proof.Machine
end

section
/-! The statements of 10_state.md. -/

namespace Sys2Proof.Machine

/-- Settles O46: the poll, the interrupt check and the fetch keep the invariant, and so does what the cycle then does,
since the core was running. -/
theorem everyStepKeepsTheStateInvariant : Obligations.EveryStepKeepsTheStateInvariant := by
  intro s t hinv hstep
  obtain ⟨⟨hhalted, hfault⟩, hcases⟩ := step_effect hstep
  have hfetched : Inv (fetch (topOfCycle s)) := hinv.topOfCycle.fetch
  have hrun : Running (fetch (topOfCycle s)) := by simp [Running, hhalted, hfault]
  rcases hcases with ⟨i, he⟩ | ⟨opcode, addr, rfl⟩
  · exact hfetched.effect hrun he
  · exact hfetched.raise hrun.1 _ _ _

/-- Settles O39, from what one effect writes and what the poll and interrupt entry leave in each register. -/
theorem registersChangeOnlyByTheirWriters : Obligations.RegistersChangeOnlyByTheirWriters := by
  refine ⟨fun i s t r h hr => (exec_effect h).writer_of_reg_ne hr, fun now s r hr => timerPoll_reg_ne s hr now,
    fun line s r hr => ?_⟩
  obtain ⟨hIM, hIS, hSP⟩ : r ≠ IM ∧ r ≠ IS ∧ r ≠ SP := by simpa [IM, IS, SP] using hr
  simp [interruptEntry_reg, hIM, hIS, hSP]

/-- Settles O40: the effect carries over to any other FL, and so does what `exec` answers. -/
theorem otherInstructionsNeitherReadNorWriteFlags : Obligations.OtherInstructionsNeitherReadNorWriteFlags := by
  refine ⟨fun i s t f hi h => ?_, topOfCycle_fl⟩
  have he := exec_effect h
  have hsub : [Opcode.cmp, .iret] ⊆ [Opcode.cmp, .iret, .jeq, .jne] := by decide
  exact ⟨he.fl_eq fun hmem => hi (hsub hmem), (he.setFl hi f).exec_eq⟩

/-- Settles O42: only the instruction of a cycle can write OUTLOG, and it appends at most one event. -/
theorem outLogOnlyGrowsByPrnAndPra : Obligations.OutLogOnlyGrowsByPrnAndPra := by
  refine ⟨rfl, fun i s t h hi => (exec_effect h).out_eq hi, fun s t h => ?_⟩
  rcases (step_effect h).2 with ⟨i, he⟩ | ⟨opcode, addr, rfl⟩
  · simpa using he.out_append
  · exact ⟨[], by simp, by simp⟩

/-- Settles O43: HLT is the only effect that writes HALTED, and a core that has it set is stopped for good. -/
theorem haltedIsSetByHltAlone : Obligations.HaltedIsSetByHltAlone := by
  refine ⟨rfl, fun i s t h => ⟨?_, (exec_effect h).halted_eq⟩, topOfCycle_halted, fun s hs => ?_⟩
  · rintro rfl
    cases (exec_hlt s).symm.trans h
    rfl
  · have hstop := stopReason_halted hs
    exact ⟨step_stopped hstop, fun n => by rw [runCycles_stopped hstop, hs]⟩

/-- Settles O44: the old IR passes through the top of the cycle unread, and the fetch overwrites it. -/
theorem stepDoesNotDependOnTheOldInstructionRegister : Obligations.StepDoesNotDependOnTheOldInstructionRegister := by
  intro s b
  change step (s.setIr b) = step s
  have hstop : stopReason (s.setIr b) = stopReason s := rfl
  simp only [step, hstop, topOfCycle_setIr, runCycle_setIr]

/-- Settles O45: the effect carries over to any other time fields, and so does what `exec` answers. -/
theorem instructionsNeitherReadNorWriteTheTimer : Obligations.InstructionsNeitherReadNorWriteTheTimer := by
  intro i s t ref now n h
  have he := exec_effect h
  obtain ⟨hRef, hTime, hPolls⟩ := he.timer_eq
  exact ⟨hRef, hTime, hPolls, (he.setTimer ref now n).exec_eq⟩

/-- Settles O48, register by register. -/
theorem resetClearsRegistersExceptTheStackPointer : Obligations.ResetClearsRegistersExceptTheStackPointer := by
  unfold Obligations.ResetClearsRegistersExceptTheStackPointer
  decide

end Sys2Proof.Machine
end

section
/-! SUPPORT. What a canonical memory reads, and which instructions change a cell. -/

namespace Sys2Proof.Machine

/-! ### The canonical form, read by read -/

/-- A canonical memory is canonical from its own first address on. -/
theorem Memory.wfFrom_head {lo k : Nat} {v : Byte} {m : Memory} (h : Memory.wfFrom lo ((k, v) :: m) = true) :
    Memory.wfFrom k ((k, v) :: m) = true := by
  rw [Memory.wfFrom_cons] at h ⊢
  exact ⟨le_refl k, h.2⟩

/-- Below the address it is canonical from, a memory lists nothing. -/
theorem Memory.read_eq_unlisted_of_lt {lo : Nat} {m : Memory} (h : Memory.wfFrom lo m = true) {a : Byte}
    (ha : a.toNat < lo) : m.read a = Memory.unlisted := by
  induction m generalizing lo with
  | nil => rfl
  | cons c m ih =>
    obtain ⟨k, v⟩ := c
    obtain ⟨hlo, -, -, hm⟩ := (Memory.wfFrom_cons lo k v m).mp h
    rw [Memory.read_cons, if_neg (by omega)]
    exact ih hm (by omega)

/-- The first cell of a canonical memory is at an address that reads its byte, which is not the unlisted one. -/
theorem Memory.exists_read_head {lo k : Nat} {v : Byte} {m : Memory} (h : Memory.wfFrom lo ((k, v) :: m) = true) :
    ∃ a : Byte, a.toNat = k ∧ Memory.read ((k, v) :: m) a = v ∧ v ≠ Memory.unlisted := by
  obtain ⟨-, hk, hv, -⟩ := (Memory.wfFrom_cons lo k v m).mp h
  exact ⟨BitVec.ofNatLT k hk, rfl, by simp, hv⟩

/-- A canonical memory without its first cell reads as before, except unlisted at that cell. -/
theorem Memory.read_tail {lo k : Nat} {v : Byte} {m : Memory} (h : Memory.wfFrom lo ((k, v) :: m) = true) (a : Byte) :
    m.read a = if k = a.toNat then Memory.unlisted else Memory.read ((k, v) :: m) a := by
  obtain ⟨-, -, -, hm⟩ := (Memory.wfFrom_cons lo k v m).mp h
  split
  next hka => exact Memory.read_eq_unlisted_of_lt hm (by omega)
  next hka => rw [Memory.read_cons, if_neg hka]

/-- Of two canonical memories that read alike, neither begins before the other. -/
theorem Memory.head_le {lo lo' k k' : Nat} {v v' : Byte} {m m' : Memory}
    (h : Memory.wfFrom lo ((k, v) :: m) = true) (h' : Memory.wfFrom lo' ((k', v') :: m') = true)
    (hread : ∀ a : Byte, Memory.read ((k, v) :: m) a = Memory.read ((k', v') :: m') a) : k' ≤ k := by
  obtain ⟨a, rfl, hav, hv⟩ := Memory.exists_read_head h
  by_contra hlt
  have hunlisted : Memory.read ((k', v') :: m') a = Memory.unlisted :=
    Memory.read_eq_unlisted_of_lt (Memory.wfFrom_head h') (Nat.lt_of_not_le hlt)
  exact hv (hav.symm.trans ((hread a).trans hunlisted))

/-- A canonical memory that reads unlisted everywhere lists nothing. -/
theorem Memory.eq_nil_of_read_unlisted {lo : Nat} {m : Memory} (h : Memory.wfFrom lo m = true)
    (hread : ∀ a : Byte, m.read a = Memory.unlisted) : m = [] := by
  cases m with
  | nil => rfl
  | cons c m =>
    obtain ⟨a, -, hav, hv⟩ := Memory.exists_read_head h
    exact absurd (hav.symm.trans (hread a)) hv

/-- Canonical memories that read alike list the same first cell, and so the same cells. -/
theorem Memory.eq_of_read_eq {lo lo' : Nat} {m m' : Memory} (h : Memory.wfFrom lo m = true)
    (h' : Memory.wfFrom lo' m' = true) (hread : ∀ a : Byte, m.read a = m'.read a) : m = m' := by
  induction m generalizing lo lo' m' with
  | nil => exact (Memory.eq_nil_of_read_unlisted h' fun a => (hread a).symm).symm
  | cons c m ih =>
    cases m' with
    | nil => exact Memory.eq_nil_of_read_unlisted h hread
    | cons c' m' =>
      obtain ⟨k, v⟩ := c
      obtain ⟨k', v'⟩ := c'
      obtain rfl : k = k' := le_antisymm (Memory.head_le h' h fun a => (hread a).symm) (Memory.head_le h h' hread)
      obtain rfl : v = v' := by
        obtain ⟨a, rfl, -, -⟩ := Memory.exists_read_head h
        simpa using hread a
      obtain ⟨-, -, -, hm⟩ := (Memory.wfFrom_cons lo k v m).mp h
      obtain ⟨-, -, -, hm'⟩ := (Memory.wfFrom_cons lo' k v m').mp h'
      rw [ih hm hm' fun a => by rw [Memory.read_tail h, Memory.read_tail h', hread a]]

/-! ### The instructions that store -/

variable {i : Instr} {s t : State}

theorem eq_of_writeByte_readByte_ne {a b v : Byte} (h : (s.writeByte a v).readByte b ≠ s.readByte b) : b = a :=
  not_imp_comm.mp (fun hb => writeByte_readByte_ne s hb v) h

theorem eq_of_push_readByte_ne {a v : Byte} (h : (push v s).readByte a ≠ s.readByte a) : a = s.reg SP - 1 :=
  not_imp_comm.mp (fun ha => by rw [push_readByte, if_neg ha]) h

/-- The instructions that store, and where: PUSH and CALL below the stack pointer, ST at x[ra] (20_memory.md R52). -/
theorem Effect.store_of_readByte_ne (h : Effect i s t) {a : Byte} (ha : t.readByte a ≠ s.readByte a) :
    (i.opcode ∈ [Opcode.push, .call] ∧ a = s.reg SP - 1) ∨
    (∃ ra rb : Reg, i = .st (regByte ra) (regByte rb) ∧ a = s.reg ra) := by
  cases h with
  | push | call => exact .inl ⟨by simp [Instr.opcode], eq_of_push_readByte_ne ha⟩
  | st ra rb => exact .inr ⟨ra, rb, rfl, eq_of_writeByte_readByte_ne ha⟩
  | _ => simp [pop_eq] at ha

end Sys2Proof.Machine
end

section
/-! The statements of 20_memory.md. -/

namespace Sys2Proof.Machine

/-- Settles O41: of the effects, only those of PUSH, CALL and ST write memory, each one cell. -/
theorem memoryChangesOnlyByStores : Obligations.MemoryChangesOnlyByStores :=
  fun _ _ _ _ h ha => (exec_effect h).store_of_readByte_ne ha

/-- Settles O50, by induction on the listed cells. -/
theorem canonicalMemoriesAreEqualWhenTheyReadAlike : Obligations.CanonicalMemoriesAreEqualWhenTheyReadAlike :=
  fun _ _ h h' hread => Memory.eq_of_read_eq h h' hread

end Sys2Proof.Machine
end

section
/-! SUPPORT. The opcode map as a whole: decoding a table byte, which operand bytes an instruction keeps, the count field
and bit 4 of a table byte; and what a cycle and an instruction answer. -/

namespace Sys2Proof

/-! ### Decoding and the operand bytes -/

@[simp] theorem decode_opcodeByte (o : Opcode) (op1 op2 : Byte) :
    decode (opcodeByte o) op1 op2 = .ok (instrOf op1 op2 o) :=
  decode_eq_ok.mpr ⟨o, rfl, rfl⟩

/-- The operands of an instruction, read from the bytes after its opcode, give the instruction back whatever follows
them: a format reads no more bytes than it has operands (30_encoding.md R74, R75). -/
theorem instrOf_operands_append (i : Instr) (rest : List Byte) :
    instrOf ((i.operands ++ rest).getD 0 0) ((i.operands ++ rest).getD 1 0) i.opcode = i := by
  cases i <;> rfl

/-- Of the two bytes after the opcode, an instruction keeps as many as its count field says (30_encoding.md R71). -/
theorem operands_instrOf (op1 op2 : Byte) (o : Opcode) :
    (instrOf op1 op2 o).operands = [op1, op2].take (operandCount (opcodeByte o)) := by
  cases o <;> rfl

theorem encode_instrOf (op1 op2 : Byte) (o : Opcode) :
    encode (instrOf op1 op2 o) = opcodeByte o :: [op1, op2].take (operandCount (opcodeByte o)) := by
  rw [encode, opcode_instrOf, operands_instrOf]

/-! ### The count field and bit 4 of a table byte -/

/-- Bits 7:6 of a byte, as a number. -/
theorem operandCount_eq_div (b : Byte) : operandCount b = b.toNat / 64 := by
  have hb := b.isLt
  simp only [operandCount, BitVec.extractLsb'_toNat, Nat.shiftRight_eq_div_pow]
  omega

/-- No registered opcode has the count field 3 (30_encoding.md R72). -/
theorem operandCount_opcodeByte_le_two (o : Opcode) : operandCount (opcodeByte o) ≤ 2 := by
  cases o <;> decide

theorem operands_length (i : Instr) : i.operands.length = operandCount (opcodeByte i.opcode) := by
  have hi : instrOf _ _ i.opcode = i := instrOf_operands_append i []
  have hle := operandCount_opcodeByte_le_two i.opcode
  rw [← hi, operands_instrOf, List.length_take, opcode_instrOf]
  exact Nat.min_eq_left hle

/-- The registered instructions that write PC (30_encoding.md R77). -/
theorem pcMutation_opcodeByte (o : Opcode) :
    pcMutation (opcodeByte o) = true ↔ o ∈ [Opcode.call, .ret, .jmp, .jeq, .jne, .iret] := by
  cases o <;> simp

/-! ### The registered bytes -/

theorem mem_allOpcodes (o : Opcode) : o ∈ allOpcodes := by
  cases o <;> decide

/-- A byte that is no table byte is rejected by name, and no other is (30_encoding.md R80). -/
theorem decode_unknownOpcode {b op1 op2 : Byte} :
    decode b op1 op2 = .error (.unknownOpcode b) ↔ b ∉ allOpcodes.map opcodeByte := by
  rw [decode_eq_error]
  simp [mem_allOpcodes]

end Sys2Proof

namespace Sys2Proof.Machine

/-- The cycle of an unregistered opcode byte records UnknownOpcode (40_execution_engine.md R104). -/
theorem runCycle_unknownOpcode {s : State} (h : ∀ o, opcodeByte o ≠ s.readByte s.pc) :
    runCycle s = .next (raise .unknownOpcode (s.readByte s.pc) s.pc (fetch s)) := by
  have hd : decodeAtPc s = .error (.unknownOpcode (s.readByte s.pc)) := decode_eq_error.mpr ⟨rfl, h⟩
  simp [runCycle, hd]

/-! ### Each operand form answers a next state: it ends the cycle by `finish` (40_execution_engine.md R106, R110) -/

theorem formF0_answers_next (o : Opcode) (h : State → Handled) (s : State) : ∃ t, formF0 o h s = .next t := ⟨_, rfl⟩

theorem formF1R_answers_next (o : Opcode) (h : Reg → State → Handled) (ra : Byte) (s : State) :
    ∃ t, formF1R o h ra s = .next t := ⟨_, rfl⟩

theorem formF2RR_answers_next (o : Opcode) (h : Reg → Reg → State → Handled) (ra rb : Byte) (s : State) :
    ∃ t, formF2RR o h ra rb s = .next t := ⟨_, rfl⟩

theorem formF2RI_answers_next (o : Opcode) (h : Reg → Byte → State → Handled) (ra imm : Byte) (s : State) :
    ∃ t, formF2RI o h ra imm s = .next t := ⟨_, rfl⟩

end Sys2Proof.Machine
end

section
/-! The statements of 30_encoding.md. -/

namespace Sys2Proof.Machine

/-- Settles O2: the first byte is the instruction's opcode byte, and the two after it give its operands back. -/
theorem decodeInvertsEncode : Obligations.DecodeInvertsEncode := by
  intro i rest
  calc decodeBytes (encode i ++ rest)
      = decode (opcodeByte i.opcode) ((i.operands ++ rest).getD 0 0) ((i.operands ++ rest).getD 1 0) := rfl
    _ = .ok i := by rw [decode_opcodeByte, instrOf_operands_append]

/-- Settles O3: the bytes left over are those past the operand count. -/
theorem encodeInvertsDecode : Obligations.EncodeInvertsDecode := by
  intro b₀ b₁ b₂ i h
  obtain ⟨o, rfl, rfl⟩ := decode_eq_ok.mp h
  exact ⟨[b₁, b₂].drop (operandCount (opcodeByte o)), by simp [encode_instrOf]⟩

/-- Settles O4: there are as many operands as the count field says, which is at most 2. -/
theorem instructionLengthIsCountFieldPlusOne : Obligations.InstructionLengthIsCountFieldPlusOne := by
  intro i
  have hlen := operands_length i
  refine ⟨opcodeByte i.opcode, i.operands, rfl, hlen ▸ operandCount_opcodeByte_le_two _, ?_⟩
  rw [← operandCount_eq_div, ← hlen]
  rfl

/-- Settles O5: the twenty bytes are those of `allOpcodes`, and bit 4 is read off the opcode that decoded. -/
theorem registeredOpcodesAreExactlyTheTable : Obligations.RegisteredOpcodesAreExactlyTheTable := by
  refine ⟨fun b op1 op2 => decode_unknownOpcode, fun b op1 op2 i h => ?_⟩
  rw [← opcode_of_decode h]
  exact pcMutation_opcodeByte i.opcode

/-- Settles O10: count field 3 is no registered opcode's, so the cycle records UnknownOpcode. -/
theorem countFieldThreeRaisesUnknownOpcode : Obligations.CountFieldThreeRaisesUnknownOpcode := by
  rintro s u hrun rfl hcount
  have hunregistered : ∀ o, opcodeByte o ≠ (topOfCycle s).readByte (topOfCycle s).pc := by
    intro o ho
    have hle := operandCount_opcodeByte_le_two o
    rw [ho, operandCount_eq_div, hcount] at hle
    omega
  rw [step_running hrun, runCycle_unknownOpcode hunregistered]
  rfl

/-- Settles O1, row by row of the opcode map. -/
theorem decodeReadsWordsOfTheOpcodeMap : Obligations.DecodeReadsWordsOfTheOpcodeMap :=
  ⟨decode_opcodeByte .ldi 0 12, decode_opcodeByte .sub 6 3, decode_opcodeByte .pop 5 255, decode_opcodeByte .jne 2 0,
    decode_opcodeByte .st 1 7, decode_opcodeByte .iret 0x55 0xAA, decode_unknownOpcode.mpr (by decide)⟩

/-- Settles O8, by the operand form of each instruction. -/
theorem everyInstructionAnswersNext : Obligations.EveryInstructionAnswersNext := by
  intro i s
  cases i with
  | nop | hlt | ret | iret =>
    simp only [exec, execNop, execHlt, execRet, execIret]
    exact formF0_answers_next ..
  | push | pop | prn | pra | call | jmp | jeq | jne =>
    simp only [exec, execPush, execPop, execPrn, execPra, execCall, execJmp, execJeq, execJne]
    exact formF1R_answers_next ..
  | ldi =>
    simp only [exec, execLdi]
    exact formF2RI_answers_next ..
  | st | add | sub | mul | div | mod | cmp =>
    simp only [exec, execSt, execAdd, execSub, execMul, execDiv, execMod, execCmp]
    exact formF2RR_answers_next ..

end Sys2Proof.Machine
end

section
/-! SUPPORT. What one cycle answers and which errors it records, the top of a cycle that takes no interrupt, and the
state that is made to fetch one given instruction. -/

namespace Sys2Proof.Machine

variable {i : Instr} {s t : State}

/-! ### One cycle -/

/-- A cycle whose bytes at PC decode is the instruction with IR written (40_execution_engine.md R102 to R104). -/
theorem runCycle_decoded (h : decodeAtPc s = .ok i) : runCycle s = exec i (fetch s) := by
  simp [runCycle, h]

/-- A cycle always answers a next state: an instruction does, and so does the record of an unregistered opcode. -/
theorem runCycle_answers_next (s : State) : ∃ t, runCycle s = .next t := by
  cases hd : decodeAtPc s with
  | ok i =>
    rw [runCycle_decoded hd]
    exact everyInstructionAnswersNext i (fetch s)
  | error e =>
    obtain ⟨-, ho⟩ := decode_eq_error.mp hd
    exact ⟨_, runCycle_unknownOpcode ho⟩

/-! ### Fatal errors -/

/-- An instruction leaves FAULT alone, or all it does is to record an error with its own opcode and address: a zero
divisor, or InvalidRegister on an ill-formed operand (40_execution_engine.md R105, R110). -/
theorem Effect.fault_cases (h : Effect i s t) : t.fault = s.fault ∨
    ∃ kind, t = raise kind (opcodeByte i.opcode) s.pc s ∧
      (kind = .divisionByZero ∨ kind = .invalidRegister ∧ i.wellFormed = false) := by
  cases h with
  | div_zero | mod_zero => exact .inr ⟨.divisionByZero, rfl, .inl rfl⟩
  | invalidRegister _ hw => exact .inr ⟨.invalidRegister, rfl, .inr ⟨rfl, hw⟩⟩
  | _ => simp [pop_eq]

theorem wellFormed_false_of_operand {b : Byte} (hmem : b ∈ i.registerOperands) (hb : 7 < b.toNat) :
    i.wellFormed = false :=
  List.all_eq_false.mpr ⟨b, hmem, by simpa using Nat.succ_le_of_lt hb⟩

/-- A cycle that sets FAULT does nothing else but the fetch's write of IR, and the record names the byte at PC and its
address (40_execution_engine.md R110). -/
theorem runCycle_fault {r : FaultRecord} (hs : s.fault = none) (h : runCycle s = .next t) (ht : t.fault = some r) :
    ∃ kind, t = raise kind (s.readByte s.pc) s.pc (fetch s) := by
  rcases runCycle_cases h with ⟨i, -, hopcode, hexec⟩ | ⟨-, hraise⟩
  · rcases (exec_effect hexec).fault_cases with hfault | ⟨kind, hraise, -⟩
    · simp [hfault, hs] at ht
    · exact ⟨kind, hopcode ▸ hraise⟩
  · exact ⟨_, hraise⟩

/-! ### The top of a cycle that takes no interrupt -/

theorem topOfCycle_of_no_line (h : pendingLine (timerPoll (timeInput s) s) = none) :
    topOfCycle s = timerPoll (timeInput s) s := by
  simp [topOfCycle, interruptCheck, h]

/-- While the mask is 0 no line is pending (60_exceptions.md R219). -/
theorem pendingLine_of_mask_zero (h : s.reg IM = 0) : pendingLine s = none := by
  simp [pendingLine_eq_none, h]

/-! ### The state made to fetch one instruction -/

/-- The three cells are distinct modulo 256, so each still holds its byte after the later writes. -/
theorem decodeAtPc_placeAtPc (b₀ b₁ b₂ : Byte) (s : State) :
    decodeAtPc (placeAtPc b₀ b₁ b₂ s) = decode b₀ b₁ b₂ := by
  simp [decodeAtPc, placeAtPc]

theorem decodeTableWord_eq_some {nbits w : Nat} : decodeTableWord nbits w = some i ↔
    decode (tableByte nbits w 0) (tableByte nbits w 1) (tableByte nbits w 2) = .ok i := by
  cases h : decode (tableByte nbits w 0) (tableByte nbits w 1) (tableByte nbits w 2) <;> simp [decodeTableWord, h]

/-- With no line pending after the poll, the state made ready keeps its registers. -/
theorem readyToFetch_of_no_line (h : pendingLine (timerPoll (timeInput s) s) = none) :
    readyToFetch s = { s with halted := false, fault := none } := by
  simp [readyToFetch, h]

/-- With a line pending after the poll, the mask is cleared. -/
theorem readyToFetch_of_line {line : Reg} (h : pendingLine (timerPoll (timeInput s) s) = some line) :
    readyToFetch s = { s.setReg IM 0 with halted := false, fault := none } := by
  simp [readyToFetch, h, State.setReg]

theorem readyToFetch_reg_ne {r : Reg} (hr : r ≠ IM) : (readyToFetch s).reg r = s.reg r := by
  cases h : pendingLine (timerPoll (timeInput s) s) with
  | none => rw [readyToFetch_of_no_line h]; rfl
  | some line =>
    rw [readyToFetch_of_line h]
    exact setReg_reg_ne s hr 0

/-- The poll of the state made ready leaves no line pending: there was none, or the mask is now 0. -/
theorem pendingLine_readyToFetch (s : State) :
    pendingLine (timerPoll (timeInput (readyToFetch s)) (readyToFetch s)) = none := by
  cases h : pendingLine (timerPoll (timeInput s) s) with
  | none => rw [readyToFetch_of_no_line h]; exact h
  | some line =>
    apply pendingLine_of_mask_zero
    rw [timerPoll_reg_ne _ (by decide), readyToFetch_of_line h]
    exact setReg_reg_self s IM 0

/-! ### The step of that state -/

theorem withFetchWord_running (s : State) (nbits w : Nat) : Running (s.withFetchWord nbits w) := ⟨rfl, rfl⟩

theorem withFetchWord_reg_ne (nbits w : Nat) {r : Reg} (hr : r ≠ IM) : (s.withFetchWord nbits w).reg r = s.reg r :=
  readyToFetch_reg_ne hr

/-- The top of the next cycle is the poll alone. -/
theorem topOfCycle_withFetchWord (s : State) (nbits w : Nat) : topOfCycle (s.withFetchWord nbits w) =
    timerPoll (timeInput (s.withFetchWord nbits w)) (s.withFetchWord nbits w) :=
  topOfCycle_of_no_line (pendingLine_readyToFetch s)

/-- The bytes placed at PC are there at the fetch, and decode as the table word does. -/
theorem decodeAtPc_topOfCycle_withFetchWord (s : State) (nbits w : Nat) :
    decodeAtPc (topOfCycle (s.withFetchWord nbits w)) =
      decode (tableByte nbits w 0) (tableByte nbits w 1) (tableByte nbits w 2) := by
  rw [topOfCycle_withFetchWord]
  exact decodeAtPc_placeAtPc _ _ _ (readyToFetch s)

end Sys2Proof.Machine
end

section
/-! The statements of 40_execution_engine.md. -/

namespace Sys2Proof.Machine

/-- Settles O7: a running core's step is a cycle, which always answers a next state; any other core has a stop
reason. -/
theorem stepAnswersExactlyWhileRunning : Obligations.StepAnswersExactlyWhileRunning := by
  refine ⟨fun s => ⟨?_, fun hrun => ?_⟩, fun s hs => step_stopped (stopReason_halted hs), fun s r hs hr => ?_⟩
  · rintro ⟨t, h⟩
    exact (step_next h).1
  · rw [step_running hrun]
    exact runCycle_answers_next _
  · exact step_stopped (by simp [stopReason, hs, hr])

/-- Settles O11: an operand above 7 makes the instruction ill formed, and only an ill-formed one records
InvalidRegister. -/
theorem registerOperandAboveSevenRaisesInvalidRegister : Obligations.RegisterOperandAboveSevenRaisesInvalidRegister := by
  refine ⟨rfl, fun i s b hmem hb => exec_illFormed s (wellFormed_false_of_operand hmem hb),
    fun i s t r hw hs h ht => ?_⟩
  rcases (exec_effect h).fault_cases with hfault | ⟨kind, rfl, hkind⟩
  · simp [hfault, hs] at ht
  · obtain rfl : _ = r := Option.some.inj ht
    rcases hkind with rfl | ⟨-, hill⟩
    · simp
    · simp [hw] at hill

/-- Settles O12: a running core has no FAULT record before its cycle, so the cycle that leaves one only raised it. -/
theorem fatalErrorsArePrecise : Obligations.FatalErrorsArePrecise := by
  rintro s _ t r ⟨-, hfault⟩ rfl h ht
  obtain ⟨kind, rfl⟩ := runCycle_fault (by simpa using hfault) (step_next h).2 ht
  obtain rfl : _ = r := Option.some.inj ht
  exact ⟨rfl, rfl, rfl⟩

/-- Settles O53: the top of the cycle is the poll alone, which leaves PC, the placed bytes and every register but IS. -/
theorem withFetchWordRunsTheTableWord : Obligations.WithFetchWordRunsTheTableWord := by
  intro s nbits w i hword
  have hdecode : decodeAtPc (topOfCycle (s.withFetchWord nbits w)) = .ok i :=
    (decodeAtPc_topOfCycle_withFetchWord s nbits w).trans (decodeTableWord_eq_some.mp hword)
  refine ⟨fetch (topOfCycle (s.withFetchWord nbits w)), ?_, ?_, (opcode_of_decode hdecode).symm, fun r hIM hIS => ?_⟩
  · rw [step_running (withFetchWord_running s nbits w), runCycle_decoded hdecode]
  · rw [topOfCycle_withFetchWord]
    rfl
  · rw [fetch_reg, topOfCycle_withFetchWord, timerPoll_reg_ne _ hIS, withFetchWord_reg_ne nbits w hIM]

/-- Settles O6: the cycle runs the instruction its three bytes decode to, and with no line pending its top is the
poll. -/
theorem stepRunsTheDecodedInstruction : Obligations.StepRunsTheDecodedInstruction := by
  refine ⟨?_, fun s h => topOfCycle_of_no_line h⟩
  rintro s _ i hrun rfl hdecode
  exact (step_running hrun).trans (runCycle_decoded hdecode)

end Sys2Proof.Machine
end

section
/-! SUPPORT. What the ALU's two kinds of write leave unchanged, and the bits of the flags CMP computes. -/

namespace Sys2Proof.Machine

variable (s : State)

/-! ### Frames -/

/-- Writing one register and PC changes nothing else. -/
theorem frame_setReg_setPc (a : Reg) (v pc : Byte) : Frame [a] [] s ((s.setReg a v).setPc pc) where
  regs _ hr := setReg_reg_ne s (List.ne_of_not_mem_cons hr) v
  mem _ _ := rfl
  ir := rfl
  fault := rfl
  tRef := rfl
  time := rfl
  polls := rfl
  fl := rfl
  halted := rfl
  out := rfl

/-- Writing FL and PC changes no register and no cell. -/
theorem frameCore_setFl_setPc (fl pc : Byte) : FrameCore [] [] s ((s.setFl fl).setPc pc) where
  regs _ _ := rfl
  mem _ _ := rfl
  ir := rfl
  fault := rfl
  tRef := rfl
  time := rfl
  polls := rfl

/-! ### The flags of CMP (41_alu.md R126) -/

variable (fl a b : Byte)

/-- By the unsigned order of the operands, FL keeps its reserved bits and takes one of E, G and L. -/
theorem cmpFlags_cases :
    (a.toNat = b.toNat ∧ cmpFlags fl a b = (fl &&& 0b11111000) ||| 0b00000001) ∨
    (b.toNat < a.toNat ∧ cmpFlags fl a b = (fl &&& 0b11111000) ||| 0b00000010) ∨
    (a.toNat < b.toNat ∧ cmpFlags fl a b = (fl &&& 0b11111000) ||| 0b00000100) := by
  unfold cmpFlags
  split_ifs with heq hgt
  · exact .inl ⟨heq, rfl⟩
  · exact .inr (.inl ⟨hgt, rfl⟩)
  · exact .inr (.inr ⟨by omega, rfl⟩)

theorem flagE_cmpFlags : flagE (cmpFlags fl a b) = true ↔ a.toNat = b.toNat := by
  rcases cmpFlags_cases fl a b with ⟨h, hfl⟩ | ⟨h, hfl⟩ | ⟨h, hfl⟩ <;> simp [flagE, hfl] <;> omega

theorem flagG_cmpFlags : flagG (cmpFlags fl a b) = true ↔ b.toNat < a.toNat := by
  rcases cmpFlags_cases fl a b with ⟨h, hfl⟩ | ⟨h, hfl⟩ | ⟨h, hfl⟩ <;> simp [flagG, hfl] <;> omega

theorem flagL_cmpFlags : flagL (cmpFlags fl a b) = true ↔ a.toNat < b.toNat := by
  rcases cmpFlags_cases fl a b with ⟨h, hfl⟩ | ⟨h, hfl⟩ | ⟨h, hfl⟩ <;> simp [flagL, hfl] <;> omega

/-- The mask keeps the bits from 3 on, and each of E, G and L is below them. -/
theorem cmpFlags_getLsbD_of_three_le {k : Nat} (hk : 3 ≤ k) : (cmpFlags fl a b).getLsbD k = fl.getLsbD k := by
  rcases Nat.lt_or_ge k 8 with hlt | hge
  · rcases cmpFlags_cases fl a b with ⟨-, hfl⟩ | ⟨-, hfl⟩ | ⟨-, hfl⟩ <;> rw [hfl] <;> interval_cases k <;> simp
  · rw [BitVec.getLsbD_of_ge _ _ hge, BitVec.getLsbD_of_ge _ _ hge]

end Sys2Proof.Machine
end

section
/-! The statements of 41_alu.md. -/

namespace Sys2Proof.Machine

/-- Settles O13: the byte sum is the sum modulo 256. -/
theorem addWritesTheSumModulo256 : Obligations.AddWritesTheSumModulo256 := by
  refine fun s a b => ⟨decode_opcodeByte .add _ _, _, exec_add s a b, ?_, rfl, frame_setReg_setPc s a _ _⟩
  simp [BitVec.toNat_add]

/-- Settles O14: the byte difference is the integer difference modulo 256. -/
theorem subWritesTheDifferenceModulo256 : Obligations.SubWritesTheDifferenceModulo256 := by
  refine fun s a b => ⟨decode_opcodeByte .sub _ _, _, exec_sub s a b, ?_, rfl, frame_setReg_setPc s a _ _⟩
  rw [setPc_reg, setReg_reg_self, BitVec.toNat_sub]
  omega

/-- Settles O15: the byte product is the product modulo 256. -/
theorem mulWritesTheProductModulo256 : Obligations.MulWritesTheProductModulo256 := by
  refine fun s a b => ⟨decode_opcodeByte .mul _ _, _, exec_mul s a b, ?_, rfl, frame_setReg_setPc s a _ _⟩
  simp [BitVec.toNat_mul]

/-- Settles O16: the byte quotient is the unsigned one, and a zero divisor only records the fault. -/
theorem divWritesTheQuotientOrFaults : Obligations.DivWritesTheQuotientOrFaults := by
  refine fun s a b => ⟨decode_opcodeByte .div _ _, fun h => ?_, exec_div_zero s a b⟩
  refine ⟨_, exec_div s a b h, ?_, rfl, frame_setReg_setPc s a _ _⟩
  simp [BitVec.toNat_udiv]

/-- Settles O17: the byte remainder is the unsigned one, and a zero divisor only records the fault. -/
theorem modWritesTheRemainderOrFaults : Obligations.ModWritesTheRemainderOrFaults := by
  refine fun s a b => ⟨decode_opcodeByte .mod _ _, fun h => ?_, exec_mod_zero s a b⟩
  refine ⟨_, exec_mod s a b h, ?_, rfl, frame_setReg_setPc s a _ _⟩
  simp [BitVec.toNat_umod]

/-- Settles O18: E, G and L are read off the flags CMP computes, and FL is all it writes. -/
theorem cmpSetsExactlyOneOfEqualGreaterLess : Obligations.CmpSetsExactlyOneOfEqualGreaterLess :=
  fun s a b => ⟨decode_opcodeByte .cmp _ _, _, exec_cmp s a b, flagE_cmpFlags .., flagG_cmpFlags .., flagL_cmpFlags ..,
    fun _ hk => cmpFlags_getLsbD_of_three_le _ _ _ hk, rfl, frameCore_setFl_setPc s _ _, rfl, rfl⟩

end Sys2Proof.Machine
end

section
/-! SUPPORT. Frames composed, and what the stack primitives and the instructions over them leave in x[7], in the cell on
top of the stack, and unchanged. -/

namespace Sys2Proof.Machine

/-! ### Composing frames -/

section
variable {rs rs' : List Reg} {cells cells' : List Byte} {s t u : State}

/-- Of two changes in a row, each outside its registers and cells, the whole is outside both. -/
theorem Frame.trans (h : Frame rs cells s t) (h' : Frame rs' cells' t u) : Frame (rs ++ rs') (cells ++ cells') s u where
  regs r hr := by
    obtain ⟨hrs, hrs'⟩ := not_or.mp (List.mem_append.not.mp hr)
    exact (h'.regs r hrs').trans (h.regs r hrs)
  mem a ha := by
    obtain ⟨hcells, hcells'⟩ := not_or.mp (List.mem_append.not.mp ha)
    exact (h'.mem a hcells').trans (h.mem a hcells)
  ir := h'.ir.trans h.ir
  fault := h'.fault.trans h.fault
  tRef := h'.tRef.trans h.tRef
  time := h'.time.trans h.time
  polls := h'.polls.trans h.polls
  fl := h'.fl.trans h.fl
  halted := h'.halted.trans h.halted
  out := h'.out.trans h.out

/-- A frame says nothing of PC. -/
theorem Frame.setPc (h : Frame rs cells s t) (pc : Byte) : Frame rs cells s (t.setPc pc) := { h with }

end

variable (s : State)

theorem frame_setReg (a : Reg) (v : Byte) : Frame [a] [] s (s.setReg a v) := frame_setReg_setPc s a v s.pc

theorem frame_writeByte (a v : Byte) : Frame [] [a] s (s.writeByte a v) where
  regs _ _ := rfl
  mem _ hb := writeByte_readByte_ne s (List.ne_of_not_mem_cons hb) v
  ir := rfl
  fault := rfl
  tRef := rfl
  time := rfl
  polls := rfl
  fl := rfl
  halted := rfl
  out := rfl

/-! ### The stack primitives -/

/-- Push changes x[7] and the cell at the new x[7] (42_stack_calls.md R140). -/
theorem frame_push (v : Byte) : Frame [SP] [s.reg SP - 1] s (push v s) := by
  have hcell : Frame [] [s.reg SP - 1] (s.setReg SP (s.reg SP - 1)) (push v s) := by
    simpa [push] using frame_writeByte (s.setReg SP (s.reg SP - 1)) (s.reg SP - 1) v
  exact (frame_setReg s SP _).trans hcell

/-- Pop changes x[7] alone (42_stack_calls.md R141). -/
theorem frame_pop : Frame [SP] [] s (pop s).2 := frame_setReg s SP _

theorem push_readByte_top (v : Byte) : (push v s).readByte (s.reg SP - 1) = v := by rw [push_readByte, if_pos rfl]

theorem pop_reg_sp : (pop s).2.reg SP = s.reg SP + 1 := setReg_reg_self s SP _

/-- What a push stored is what the next pop reads (42_stack_calls.md R141: strict LIFO ordering). -/
theorem push_readByte_reg_sp (v : Byte) : (push v s).readByte ((push v s).reg SP) = v := by
  rw [push_reg_sp, push_readByte_top]

/-- The increment of a pop undoes the decrement of a push, also where x[7] wraps. -/
theorem push_reg_sp_add_one (v : Byte) : (push v s).reg SP + 1 = s.reg SP := by
  rw [push_reg_sp, BitVec.sub_add_cancel]

theorem toNat_sub_one (b : Byte) : (b - 1).toNat = (b.toNat + 255) % 256 := by
  rw [BitVec.toNat_sub, Nat.add_comm]
  rfl

/-! ### PUSH and POP (42_stack_calls.md R142, R143) -/

variable {a : Reg}

/-- The decrement of x[7] does not reach a pushed register other than R7. -/
theorem exec_push_ne_sp (ha : a ≠ SP) :
    exec (.push (regByte a)) s = .next ((push (s.reg a) s).setPc (s.pc + 2)) := by
  rw [exec_push, setReg_reg_ne s ha]

/-- What POP does before PC advances: the cell at x[7] into the register, and then the increment of x[7]. -/
def popLoad (a : Reg) (s : State) : State :=
  (s.setReg a (s.readByte (s.reg SP))).setReg SP ((s.setReg a (s.readByte (s.reg SP))).reg SP + 1)

theorem exec_pop_eq_popLoad (a : Reg) : exec (.pop (regByte a)) s = .next ((popLoad a s).setPc (s.pc + 2)) :=
  exec_pop s a

theorem frame_popLoad (a : Reg) : Frame [a, SP] [] s (popLoad a s) :=
  (frame_setReg s a _).trans (frame_setReg _ SP _)

/-- The increment of x[7] leaves a popped register other than R7 alone. -/
theorem popLoad_reg (ha : a ≠ SP) : (popLoad a s).reg a = s.readByte (s.reg SP) := by simp [popLoad, ha]

theorem popLoad_reg_sp (ha : a ≠ SP) : (popLoad a s).reg SP = s.reg SP + 1 := by simp [popLoad, ha.symm]

/-- POP R7 increments the byte it popped. -/
theorem popLoad_sp_reg_sp : (popLoad SP s).reg SP = s.readByte (s.reg SP) + 1 := by simp [popLoad]

end Sys2Proof.Machine
end

section
/-! The statements of 42_stack_calls.md. -/

namespace Sys2Proof.Machine

/-- Settles O20: the wrap is that of byte subtraction and addition. -/
theorem pushAndPopMoveTheStackPointerModulo256 : Obligations.PushAndPopMoveTheStackPointerModulo256 := by
  refine ⟨fun v s => ?_, fun s => ?_⟩
  · have hsp : (push v s).reg 7 = s.reg 7 - 1 := push_reg_sp s v
    rw [hsp]
    exact ⟨toNat_sub_one _, push_readByte_top s v, rfl, frame_push s v⟩
  · have hsp : (pop s).2.reg 7 = s.reg 7 + 1 := pop_reg_sp s
    rw [hsp]
    exact ⟨rfl, BitVec.toNat_add _ _, rfl, frame_pop s⟩

/-- Settles O21: PUSH pushes the register as it reads once x[7] is decremented. -/
theorem pushStoresTheRegisterReadAfterTheDecrement : Obligations.PushStoresTheRegisterReadAfterTheDecrement :=
  fun s a => ⟨decode_opcodeByte .push _ _, _, exec_push s a, (setPc_reg ..).trans (push_reg_sp s _),
    (push_readByte_top s _).trans (setReg_reg s SP a _), rfl, (frame_push s _).setPc _⟩

/-- Settles O22: POP by whether it names R7, and a POP after a PUSH finds on top of the stack what the PUSH stored. -/
theorem popLoadsTheRegisterBeforeTheIncrement : Obligations.PopLoadsTheRegisterBeforeTheIncrement := by
  refine ⟨fun s a => ⟨decode_opcodeByte .pop _ _, _, exec_pop_eq_popLoad s a, fun ha => ?_, ?_, rfl,
    (frame_popLoad s a).setPc _⟩, fun s t a b ha hb h => ?_⟩
  · exact ⟨popLoad_reg s ha, popLoad_reg_sp s ha⟩
  · rintro rfl
    exact popLoad_sp_reg_sp s
  · cases (exec_push_ne_sp s ha).symm.trans h
    exact ⟨_, exec_pop_eq_popLoad _ b, (popLoad_reg _ hb).trans (push_readByte_reg_sp s (s.reg a)),
      (popLoad_reg_sp _ hb).trans (push_reg_sp_add_one s (s.reg a))⟩

/-- Settles O23: CALL pushes the return address, and its target register is read from the state after the push. -/
theorem callPushesTheReturnAddressAndJumps : Obligations.CallPushesTheReturnAddressAndJumps :=
  fun s a => ⟨decode_opcodeByte .call _ _, _, exec_call s a, push_reg_sp s (s.pc + 2), push_readByte_top s _,
    push_reg s _ a, (frame_push s _).setPc _⟩

/-- Settles O24: RET pops PC, and on a stack as a CALL left it pops the address that CALL pushed. -/
theorem retPopsPcAndReturnsAfterTheCall : Obligations.RetPopsPcAndReturnsAfterTheCall := by
  refine ⟨decode_opcodeByte .ret _ _, fun s => ⟨_, exec_ret s, rfl, pop_reg_sp s, (frame_pop s).setPc _⟩, ?_⟩
  intro s t u a h hsp htop
  cases (exec_call s a).symm.trans h
  refine ⟨_, exec_ret u, htop.trans (push_readByte_reg_sp s _), (pop_reg_sp u).trans ?_⟩
  calc u.reg SP + 1 = (push (s.pc + 2) s).reg SP + 1 := congrArg (· + 1) hsp
    _ = s.reg SP := push_reg_sp_add_one s _

end Sys2Proof.Machine
end

section
/-! SUPPORT. The frame of an instruction that writes PC alone. -/

namespace Sys2Proof.Machine

variable (s : State)

theorem Frame.refl : Frame [] [] s s where
  regs _ _ := rfl
  mem _ _ := rfl
  ir := rfl
  fault := rfl
  tRef := rfl
  time := rfl
  polls := rfl
  fl := rfl
  halted := rfl
  out := rfl

theorem frame_setPc (pc : Byte) : Frame [] [] s (s.setPc pc) := (Frame.refl s).setPc pc

end Sys2Proof.Machine
end

section
/-! The statements of 43_branch.md. -/

namespace Sys2Proof.Machine

/-- Settles O25: all JMP does is to set PC to the register. -/
theorem jmpGoesToTheRegister : Obligations.JmpGoesToTheRegister :=
  fun s a => ⟨decode_opcodeByte .jmp _ _, _, exec_jmp s a, rfl, frame_setPc s _⟩

/-- Settles O26: JEQ and JNE set PC alone, and the flag their condition tests is FL bit 0. -/
theorem conditionalBranchesTestOnlyTheEqualBit : Obligations.ConditionalBranchesTestOnlyTheEqualBit := by
  refine fun s a => ⟨decode_opcodeByte .jeq _ _, decode_opcodeByte .jne _ _,
    ⟨_, exec_jeq s a, fun hset => ?_, fun hclear => ?_, frame_setPc s _⟩,
    ⟨_, exec_jne s a, fun hclear => ?_, fun hset => ?_, frame_setPc s _⟩⟩
  · exact if_pos hset
  · exact if_neg (ne_true_of_eq_false hclear)
  · exact if_pos (congrArg not hclear)
  · exact if_neg (ne_true_of_eq_false (congrArg not hset))

end Sys2Proof.Machine
end

section
/-! SUPPORT. What the return from an interrupt leaves unchanged, and how its nine pops meet the nine pushes of entry. -/

namespace Sys2Proof.Machine

/-- IM_REENABLE is an enabled state (44_interrupt_return.md R170): the free value below it is less than 255. -/
theorem imReenable_ne_zero : Config.imReenable ≠ 0 := by
  intro hzero
  have hmod : (1 + Config.imReenableLess1.val) % 2 ^ 8 = 0 := congrArg BitVec.toNat hzero
  omega

variable (line : Reg) (s : State)

/-- The return writes registers, FL and PC alone. -/
theorem frameCore_interruptReturn : FrameCore [0, 1, 2, 3, 4, 5, 6, 7] [] s (interruptReturn s) where
  regs r hr := absurd (List.mem_finRange r) hr
  mem _ _ := interruptReturn_readByte s _
  ir := interruptReturn_ir s
  fault := interruptReturn_fault s
  tRef := interruptReturn_tRef s
  time := interruptReturn_time s
  polls := interruptReturn_polls s

/-- The registers entry saves with the interrupted program's values: it clears x[5] and x[6] before it pushes them. -/
theorem reg_cases_of_lt_five : ∀ r : Reg, r < 5 → r = 0 ∨ r = 1 ∨ r = 2 ∨ r = 3 ∨ r = 4 := by decide

/-! ### The frame, from x[7] down (60_exceptions.md R215) -/

theorem interruptEntry_readByte_pc : (interruptEntry line s).readByte (s.reg SP - 1) = s.pc := by
  simp [interruptEntry_readByte]

theorem interruptEntry_readByte_fl : (interruptEntry line s).readByte (s.reg SP - 2) = s.fl := by
  simp [interruptEntry_readByte]

theorem interruptEntry_readByte_status : (interruptEntry line s).readByte (s.reg SP - 9) = 0 := by
  simp [interruptEntry_readByte]

theorem interruptEntry_readByte_reg {r : Reg} (hr : r < 5) :
    (interruptEntry line s).readByte (s.reg SP - BitVec.ofNat 8 (3 + r.val)) = s.reg r := by
  rcases reg_cases_of_lt_five r hr with rfl | rfl | rfl | rfl | rfl <;> simp [interruptEntry_readByte]

/-! ### The pops, from x[7] up (44_interrupt_return.md R170) -/

theorem interruptReturn_reg_of_lt {r : Reg} (hr : r < 5) :
    (interruptReturn s).reg r = s.readByte (s.reg SP + BitVec.ofNat 8 (6 - r.val)) := by
  rcases reg_cases_of_lt_five r hr with rfl | rfl | rfl | rfl | rfl <;> simp [interruptReturn_reg]

theorem interruptReturn_status : (interruptReturn s).reg IS = s.readByte (s.reg SP) := interruptReturn_reg s IS

theorem interruptReturn_mask : (interruptReturn s).reg IM = Config.imReenable := interruptReturn_reg s IM

theorem interruptReturn_sp : (interruptReturn s).reg SP = s.reg SP + 9 := interruptReturn_reg s SP

/-- The cell `k` above the bottom of the frame is the cell `9 - k` below the x[7] of before entry. -/
theorem sub_nine_add_byte (x : Byte) {k : Nat} (hk : k ≤ 9) :
    x - 9 + BitVec.ofNat 8 k = x - BitVec.ofNat 8 (9 - k) := by
  bv_omega

end Sys2Proof.Machine
end

section
/-! The statements of 44_interrupt_return.md. -/

namespace Sys2Proof.Machine

/-- Settles O27: every register, FL and PC as the return pops them, and the frame of the return. -/
theorem iretPopsNineBytesAndReenables : Obligations.IretPopsNineBytesAndReenables :=
  ⟨decode_opcodeByte .iret _ _, imReenable_ne_zero, fun s => ⟨_, exec_iret s,
    interruptReturn_status s, interruptReturn_mask s,
    interruptReturn_reg s 4, interruptReturn_reg s 3, interruptReturn_reg s 2, interruptReturn_reg s 1,
    interruptReturn_reg s 0, interruptReturn_fl s, interruptReturn_pc s, interruptReturn_sp s,
    frameCore_interruptReturn s, interruptReturn_halted s, interruptReturn_out s⟩⟩

/-- Settles O32: x[7] is 9 below its value before entry, so the pop `k` bytes up reads what entry stored `9 - k` bytes
down; the pops of FL, PC and each register meet the pushes of the same. -/
theorem interruptRoundTripRestoresTheContext : Obligations.InterruptRoundTripRestoresTheContext := by
  rintro line s _ u rfl hsp hframe
  have hsp9 : u.reg SP = s.reg SP - 9 := hsp.trans (interruptEntry_reg line s SP)
  have hpop : ∀ k ≤ 8, u.readByte (u.reg SP + BitVec.ofNat 8 k) =
      (interruptEntry line s).readByte (s.reg SP - BitVec.ofNat 8 (9 - k)) := fun k hk => by
    rw [hsp9, sub_nine_add_byte _ (by omega)]
    exact hframe (9 - k) (by omega) (by omega)
  refine ⟨_, exec_iret u, ?pc, ?fl, ?regs, ?sp, ?status, interruptReturn_mask u⟩
  case pc => exact (interruptReturn_pc u).trans ((hpop 8 (by decide)).trans (interruptEntry_readByte_pc line s))
  case fl => exact (interruptReturn_fl u).trans ((hpop 7 (by decide)).trans (interruptEntry_readByte_fl line s))
  case regs =>
    intro r hr
    have hlt : r.val < 5 := hr
    have hcell : 9 - (6 - r.val) = 3 + r.val := by omega
    rw [interruptReturn_reg_of_lt u hr, hpop (6 - r.val) (by omega), hcell, interruptEntry_readByte_reg line s hr]
  case sp => exact (interruptReturn_sp u).trans ((congrArg (· + 9) hsp9).trans (BitVec.sub_add_cancel _ _))
  case status =>
    calc (interruptReturn u).reg IS = u.readByte (u.reg SP) := interruptReturn_status u
      _ = u.readByte (u.reg SP + 0) := congrArg u.readByte (BitVec.add_zero _).symm
      _ = (interruptEntry line s).readByte (s.reg SP - 9) := hpop 0 (by decide)
      _ = 0 := interruptEntry_readByte_status line s

end Sys2Proof.Machine
end

section
/-! SUPPORT. What the output instructions and HLT leave unchanged, and how a halted core shows on its ports. -/

namespace Sys2Proof.Machine

section
variable {rs : List Reg} {cells : List Byte} {s t : State}

/-- A core frame says nothing of PC. -/
theorem FrameCore.setPc (h : FrameCore rs cells s t) (pc : Byte) : FrameCore rs cells s (t.setPc pc) := { h with }

end

variable (s : State)

/-- An event on the OUT port is no change of the core's own state (45_data_plain.md R182). -/
theorem frameCore_emit (e : OutEvent) : FrameCore [] [] s (s.emit e) := { Frame.refl s with }

theorem frameCore_halt : FrameCore [] [] s s.halt := { Frame.refl s with }

/-! ### A halted core (60_exceptions.md R205, 40_execution_engine.md R101) -/

section
variable {s}

theorem runStatus_of_halted (h : s.halted = true) : runStatus s = .halted := by simp [runStatus, h]

theorem exitCode_of_halted (h : s.halted = true) : exitCode (runStatus s) = some 0 := by
  rw [runStatus_of_halted h]
  rfl

theorem step_ne_next_of_halted (h : s.halted = true) (v : State) : step s ≠ .next v := by
  simp [step_stopped (stopReason_halted h)]

theorem runCycles_of_halted (h : s.halted = true) (n : Nat) : runCycles n s = s :=
  runCycles_stopped (stopReason_halted h) n

end

end Sys2Proof.Machine
end

section
/-! The statements of 45_data_plain.md. -/

namespace Sys2Proof.Machine

/-- Settles O34: LDI writes the immediate to the register and advances PC. -/
theorem ldiLoadsTheImmediate : Obligations.LdiLoadsTheImmediate :=
  fun s a v => ⟨decode_opcodeByte .ldi _ _, _, exec_ldi s a v, setReg_reg_self s a v, rfl, frame_setReg_setPc s a v _⟩

/-- Settles O35: the cell ST stores to is read back, and it is the only one changed. -/
theorem stStoresAtTheAddressInTheFirstRegister : Obligations.StStoresAtTheAddressInTheFirstRegister :=
  fun s a b => ⟨decode_opcodeByte .st _ _, _, exec_st s a b, writeByte_readByte_self s _ _, rfl,
    (frame_writeByte s _ _).setPc _⟩

/-- Settles O36: PRN and PRA emit their event and advance PC; the decimal text is the host's own definition. -/
theorem prnAndPraAppendOneEvent : Obligations.PrnAndPraAppendOneEvent :=
  ⟨fun s a => ⟨decode_opcodeByte .prn _ _, decode_opcodeByte .pra _ _,
    ⟨_, exec_prn s a, emit_out s _, rfl, (frameCore_emit s _).setPc _, rfl, rfl⟩,
    ⟨_, exec_pra s a, emit_out s _, rfl, (frameCore_emit s _).setPc _, rfl, rfl⟩⟩, fun _ => rfl⟩

/-- Settles O37: NOP advances PC alone. -/
theorem nopOnlyAdvancesPc : Obligations.NopOnlyAdvancesPc := ⟨decode_opcodeByte .nop _ _, exec_nop⟩

/-- Settles O38: HLT leaves a halted core, on which no cycle runs and which reports Halted. -/
theorem hltStopsTheCoreForGood : Obligations.HltStopsTheCoreForGood := by
  refine ⟨decode_opcodeByte .hlt _ _, fun s => ?_⟩
  have hhalted : (s.halt.setPc (s.pc + 1)).halted = true := halt_halted s
  exact ⟨_, exec_hlt s, hhalted, rfl, (frameCore_halt s).setPc _, rfl, rfl, runStatus_of_halted hhalted,
    exitCode_of_halted hhalted, step_ne_next_of_halted hhalted, runCycles_of_halted hhalted⟩

end Sys2Proof.Machine
end

section
/-! SUPPORT. A stopped core on the RUN port, the ALU's last case, the poll and the interrupt check line by line, what
interrupt entry leaves unchanged, and what LOAD stores. -/

namespace Sys2Proof.Machine

/-! ### Stopped and running cores (10_state.md R35, 60_exceptions.md R205, R231) -/

section
variable {s t : State}

theorem not_running_of_fault {r : FaultRecord} (h : s.fault = some r) : ¬ Running s :=
  fun ⟨_, hnone⟩ => by simp [h] at hnone

theorem step_ne_next_of_not_running (h : ¬ Running s) (v : State) : step s ≠ .next v :=
  fun hstep => h (step_next hstep).1

theorem runStatus_of_fault {r : FaultRecord} (hh : s.halted = false) (h : s.fault = some r) :
    runStatus s = .fault r := by
  simp [runStatus, hh, h]

/-- The status of a stopped core is never Running. -/
theorem runStatus_ne_running (h : ¬ Running s) : runStatus s ≠ .running := by
  unfold Running at h
  cases hh : s.halted with
  | true => simp [runStatus_of_halted hh]
  | false =>
    obtain ⟨r, hr⟩ := Option.ne_none_iff_exists'.mp fun hnone => h ⟨hh, hnone⟩
    simp [runStatus_of_fault hh hr]

theorem runCycles_of_not_running (h : ¬ Running s) (n : Nat) : runCycles n s = s := by
  obtain ⟨f, hf⟩ := Option.ne_none_iff_exists'.mp (mt stopReason_eq_none.mp h)
  exact runCycles_stopped hf n

theorem runCycles_succ (h : step s = .next t) (n : Nat) : runCycles (n + 1) s = runCycles n t := by
  simp [runCycles, h]

theorem runCycles_add (m n : Nat) (s : State) : runCycles (m + n) s = runCycles n (runCycles m s) := by
  induction m generalizing s with
  | zero => rw [Nat.zero_add]; rfl
  | succ m ih =>
    by_cases hrun : Running s
    · obtain ⟨t, ht⟩ := (stepAnswersExactlyWhileRunning.1 s).mpr hrun
      rw [Nat.succ_add, runCycles_succ ht, runCycles_succ ht, ih]
    · simp only [runCycles_of_not_running hrun]

/-- RUN reports the status of the state its cycles end in, once that core has stopped. -/
theorem runPort_of_not_running {n : Nat} (h : ¬ Running (runCycles n s)) :
    runPort n s = some (runStatus (runCycles n s)) := by
  have hne := runStatus_ne_running h
  unfold runPort
  cases hst : runStatus (runCycles n s) with
  | running => exact absurd hst hne
  | halted | fault => rfl

end

/-! ### The ALU's last case (60_exceptions.md R206) -/

theorem alu_unsupported {ir : Byte} (h : ir ∉ ([0xA0, 0xA1, 0xA2, 0xA3, 0xA4, 0xA7] : List Byte)) (a b : Reg)
    (s : State) : alu ir a b s = .error .unsupportedAluOperation := by
  cases ho : opcodeOf ir with
  | none => simp [alu, ho]
  | some o =>
    obtain rfl := opcodeByte_of_opcodeOf ho
    cases o with
    | add | sub | mul | div | mod | cmp => exact absurd (by decide) h
    | _ => simp [alu]

variable (line : Reg) (s : State)

/-! ### The timer poll (60_exceptions.md R210) -/

theorem timerPoll_of_tick {now : Nat} (h : s.tRef + Config.timerPeriod ≤ now) :
    (timerPoll now s).reg IS = s.reg IS ||| 1 ∧ (timerPoll now s).tRef = now := by
  have htick := (isTick_iff s now).mpr h
  exact ⟨by simp [timerPoll_reg, htick], by simp [timerPoll_tRef, htick]⟩

theorem timerPoll_of_no_tick {now : Nat} (h : now < s.tRef + Config.timerPeriod) :
    (timerPoll now s).reg IS = s.reg IS ∧ (timerPoll now s).tRef = s.tRef := by
  have htick : ¬ isTick now s = true := fun ht => absurd ((isTick_iff s now).mp ht) (Nat.not_le.mpr h)
  exact ⟨by simp [timerPoll_reg, htick], by simp [timerPoll_tRef, htick]⟩

/-- A poll only ever sets a status bit. -/
theorem timerPoll_keeps_status_bit {k : Nat} (h : (s.reg IS).getLsbD k = true) (now : Nat) :
    ((timerPoll now s).reg IS).getLsbD k = true := by
  rcases Nat.lt_or_ge now (s.tRef + Config.timerPeriod) with hno | htick
  · rw [(timerPoll_of_no_tick s hno).1, h]
  · rw [(timerPoll_of_tick s htick).1, BitVec.getLsbD_or, h, Bool.true_or]

/-! ### The interrupt check (60_exceptions.md R213) -/

section
variable {line s}

theorem interruptCheck_of_no_line (h : pendingLine s = none) : interruptCheck s = s := by
  simp [interruptCheck, h]

theorem interruptCheck_of_line (h : pendingLine s = some line) : interruptCheck s = interruptEntry line s := by
  simp [interruptCheck, h]

theorem pendingLine_of_and_eq_zero (h : s.reg IM &&& s.reg IS = 0) : pendingLine s = none := by
  simp only [pendingLine_eq_none, h]
  exact fun _ => BitVec.getLsbD_zero

/-- The least line both enabled and pending is the one found: the lines are searched from bit 0 up. -/
theorem pendingLine_of_least (h : (s.reg IM &&& s.reg IS).getLsbD line = true)
    (hleast : ∀ j < line, (s.reg IM &&& s.reg IS).getLsbD j = false) : pendingLine s = some line := by
  refine List.find?_eq_some_iff_getElem.mpr ⟨by simpa using h, line, by simp, by simp, fun j hj => ?_⟩
  have hbit := hleast ⟨j, hj.trans line.isLt⟩ hj
  rw [BitVec.getLsbD_and, Bool.and_eq_false_iff] at hbit
  simpa using hbit

theorem exists_pendingLine (h : (s.reg IM &&& s.reg IS).getLsbD line = true) : ∃ i, pendingLine s = some i :=
  Option.ne_none_iff_exists'.mp fun hnone =>
    Bool.false_ne_true (((pendingLine_eq_none s).mp hnone line).symm.trans h)

/-- While the mask is 0 the poll is all there is before the fetch: it writes no mask. -/
theorem topOfCycle_of_mask_zero (h : s.reg IM = 0) : topOfCycle s = timerPoll (timeInput s) s :=
  topOfCycle_of_no_line (pendingLine_of_mask_zero ((timerPoll_reg_ne s (by decide) _).trans h))

end

theorem exists_reg_bit_of_ne_zero {b : Byte} (h : b ≠ 0) : ∃ i : Reg, b.getLsbD i = true := by
  by_contra hnone
  refine h (BitVec.eq_of_getLsbD_eq fun i hi => ?_)
  exact (Bool.eq_false_iff.mpr fun hbit => hnone ⟨⟨i, hi⟩, hbit⟩).trans BitVec.getLsbD_zero.symm

/-! ### Interrupt entry (60_exceptions.md R215) -/

theorem interruptEntry_mask : (interruptEntry line s).reg IM = 0 := interruptEntry_reg line s IM

theorem interruptEntry_status : (interruptEntry line s).reg IS = 0 := interruptEntry_reg line s IS

theorem interruptEntry_sp : (interruptEntry line s).reg SP = s.reg SP - 9 := interruptEntry_reg line s SP

theorem interruptEntry_readByte_mask : (interruptEntry line s).readByte (s.reg SP - 8) = 0 := by
  simp [interruptEntry_readByte]

/-- The nine cells of the frame, from x[7] down. -/
def entryCells (s : State) : List Byte := (List.range' 1 9).map fun k => s.reg SP - BitVec.ofNat 8 k

theorem not_mem_entryCells {a : Byte} :
    a ∉ entryCells s ↔ ∀ k : Nat, 1 ≤ k → k ≤ 9 → s.reg SP - BitVec.ofNat 8 k ≠ a := by
  simp only [entryCells, List.mem_map, List.mem_range'_1, not_exists, not_and]
  exact forall_congr' fun k => ⟨fun h h1 h9 => h ⟨h1, by omega⟩, fun h hk => h hk.1 (by omega)⟩

/-- Entry changes IM, IS and SP, the nine cells, and PC, of which a frame says nothing. -/
theorem frame_interruptEntry : Frame [IM, IS, SP] (entryCells s) s (interruptEntry line s) where
  regs r hr := by
    simp only [List.mem_cons, List.not_mem_nil, or_false, not_or] at hr
    obtain ⟨hIM, hIS, hSP⟩ := hr
    simp [interruptEntry_reg, hIM, hIS, hSP]
  mem a ha := by
    have hne : ∀ k : Nat, 1 ≤ k → k ≤ 9 → a ≠ s.reg SP - BitVec.ofNat 8 k :=
      fun k h1 h9 => ((not_mem_entryCells s).mp ha k h1 h9).symm
    simp [interruptEntry_readByte, hne]
  ir := interruptEntry_ir line s
  fault := interruptEntry_fault line s
  tRef := interruptEntry_tRef line s
  time := interruptEntry_time line s
  polls := interruptEntry_polls line s
  fl := interruptEntry_fl line s
  halted := interruptEntry_halted line s
  out := interruptEntry_out line s

/-! ### LOAD (60_exceptions.md R230) -/

theorem loadFrom_eq_with_mem (k : Byte) (image : List Byte) :
    loadFrom k image s = { s with mem := (loadFrom k image s).mem } := by
  induction image generalizing k s with
  | nil => rfl
  | cons b image ih => exact ih (s.writeByte k b) (k + 1)

/-- An image that fits between cell `n` and the end of memory is read back from `n` on. The address is a number, so that
the one after the last cell is 256 and not cell 0. -/
theorem loadFrom_readByte (n : Nat) (image : List Byte) (h : n + image.length ≤ 256) (a : Byte) :
    (loadFrom (BitVec.ofNat 8 n) image s).readByte a =
      if a.toNat < n then s.readByte a else image.getD (a.toNat - n) (s.readByte a) := by
  induction image generalizing n s with
  | nil => simp [loadFrom]
  | cons b image ih =>
    have hlen : n + 1 + image.length ≤ 256 := by
      rw [List.length_cons] at h
      omega
    have haddr : a = BitVec.ofNat 8 n ↔ a.toNat = n := by
      rw [← BitVec.toNat_inj, BitVec.toNat_ofNat, Nat.mod_eq_of_lt (by omega)]
    have hnext : BitVec.ofNat 8 n + 1 = BitVec.ofNat 8 (n + 1) := (BitVec.ofNat_add n 1).symm
    rw [loadFrom, hnext, ih _ _ hlen, writeByte_readByte, if_congr haddr rfl rfl]
    rcases Nat.lt_trichotomy a.toNat n with hlt | heq | hgt
    · simp [hlt, hlt.ne, Nat.lt_succ_of_lt hlt]
    · simp [heq]
    · obtain ⟨d, hd⟩ := Nat.exists_eq_add_of_lt hgt
      have hd1 : a.toNat - n = d + 1 := by omega
      have hd0 : a.toNat - (n + 1) = d := by omega
      simp [hgt.ne', Nat.not_lt.mpr hgt.le, Nat.not_lt.mpr hgt, hd1, hd0]

end Sys2Proof.Machine
end

section
/-! The statements of 60_exceptions.md. -/

namespace Sys2Proof.Machine

/-- Settles O9: a byte outside the map is no opcode's, so the cycle records UnknownOpcode, and that core has stopped. -/
theorem unregisteredOpcodeRaisesUnknownOpcode : Obligations.UnregisteredOpcodeRaisesUnknownOpcode := by
  refine ⟨rfl, ?_⟩
  rintro s _ hrun rfl hbyte
  obtain ⟨-, hunregistered⟩ := decode_eq_error.mp (decode_unknownOpcode (op1 := 0) (op2 := 0) |>.mpr hbyte)
  have hstep := (step_running hrun).trans (runCycle_unknownOpcode hunregistered)
  refine ⟨_, hstep, rfl, rfl, ⟨Config.exitFault, ?_, Nat.succ_ne_zero _⟩,
    step_ne_next_of_not_running (not_running_of_fault rfl)⟩
  rw [runStatus_of_fault (by simpa using hrun.1) rfl]
  rfl

/-- Settles O19: an instruction that records an error records DivisionByZero or InvalidRegister. -/
theorem unsupportedAluOperationIsTheAluLastCase : Obligations.UnsupportedAluOperationIsTheAluLastCase := by
  refine ⟨rfl, fun ir a b s h => alu_unsupported h a b s, fun i s t r hs h ht => ?_⟩
  rcases (exec_effect h).fault_cases with hfault | ⟨kind, rfl, hkind⟩
  · simp [hfault, hs] at ht
  · obtain rfl : _ = r := Option.some.inj ht
    rcases hkind with rfl | ⟨rfl, -⟩ <;> simp

/-- Settles O28: the nine cells of the frame, the registers, the vector cell as the pushes left it, and the fetch at the
state entry left. -/
theorem interruptEntryBuildsTheFrameAndVectors : Obligations.InterruptEntryBuildsTheFrameAndVectors := by
  refine ⟨?_, fun line v t i hrun htop _ => stepRunsTheDecodedInstruction.1 v t i hrun htop.symm⟩
  rintro line s _ rfl
  have hframe := frame_interruptEntry line s
  have hreg (r : Reg) (hr : r < 5) := interruptEntry_readByte_reg line s hr
  exact ⟨interruptEntry_readByte_pc line s, interruptEntry_readByte_fl line s,
    hreg 0 (by decide), hreg 1 (by decide), hreg 2 (by decide), hreg 3 (by decide), hreg 4 (by decide),
    interruptEntry_readByte_mask line s, interruptEntry_readByte_status line s,
    interruptEntry_mask line s, interruptEntry_status line s, interruptEntry_sp line s, interruptEntry_pc line s,
    fun hvector => (interruptEntry_pc line s).trans (hframe.mem _ ((not_mem_entryCells s).mpr hvector)), hframe⟩

/-- Settles O29: the search finds no line in 0 and the least line otherwise, and the check enters what is found. -/
theorem interruptCheckTakesTheLowestPendingLine : Obligations.InterruptCheckTakesTheLowestPendingLine := by
  refine ⟨fun _ => rfl, fun s hzero => ?_, fun s i hi hleast => ?_⟩
  · have hline := pendingLine_of_and_eq_zero hzero
    exact ⟨hline, interruptCheck_of_no_line hline⟩
  · have hline := pendingLine_of_least hi hleast
    exact ⟨hline, interruptCheck_of_line hline⟩

/-- Settles O30: either way some line is enabled and pending after the poll, so the check enters one. -/
theorem pendingInterruptIsTakenBeforeTheFetch : Obligations.PendingInterruptIsTakenBeforeTheFetch := by
  rintro s _ rfl h
  obtain ⟨k, hIM, hIS⟩ : ∃ k : Reg, (s.reg IM).getLsbD k = true ∧
      ((timerPoll (timeInput s) s).reg IS).getLsbD k = true := by
    rcases h with hpending | ⟨htick, henabled⟩
    · obtain ⟨k, hk⟩ := exists_reg_bit_of_ne_zero hpending
      rw [BitVec.getLsbD_and, Bool.and_eq_true] at hk
      exact ⟨k, hk.1, timerPoll_keeps_status_bit s hk.2 _⟩
    · refine ⟨0, henabled, ?_⟩
      rw [(timerPoll_of_tick s htick).1, BitVec.getLsbD_or]
      exact Bool.or_true _
  have hmask : (timerPoll (timeInput s) s).reg IM = s.reg IM := timerPoll_reg_ne s (by decide) _
  obtain ⟨line, hline⟩ := exists_pendingLine (s := timerPoll (timeInput s) s) (line := k) (by
    rw [BitVec.getLsbD_and, hmask, hIM, hIS, Bool.and_self])
  exact ⟨line, pendingLine_eq_some _ hline, interruptCheck_of_line hline⟩

/-- Settles O31: with the mask 0 no line is found, and entry leaves the mask 0. -/
theorem maskZeroTakesNoInterrupt : Obligations.MaskZeroTakesNoInterrupt := by
  refine ⟨fun s => topOfCycle_of_mask_zero, fun line s => ?_⟩
  have hmask := interruptEntry_mask line s
  exact ⟨interruptCheck_of_no_line (pendingLine_of_mask_zero hmask), topOfCycle_of_mask_zero hmask⟩

/-- Settles O33, by whether the poll is a tick. -/
theorem timerPollSetsStatusBitZeroOnATick : Obligations.TimerPollSetsStatusBitZeroOnATick := by
  rintro now s _ rfl
  exact ⟨timerPoll_of_tick s, timerPoll_of_no_tick s, fun r hr => timerPoll_reg_ne s hr now,
    timerPoll_pc s now, timerPoll_fl s now, timerPoll_mem s now, timerPoll_ir s now, timerPoll_halted s now,
    timerPoll_fault s now, timerPoll_out s now⟩

/-- Settles O51: an image of at most 256 bytes fits from cell 0 on; LOAD refuses any other. -/
theorem loadPortStoresTheImageFromZero : Obligations.LoadPortStoresTheImageFromZero := by
  refine ⟨fun image s h => ⟨_, if_pos h, fun a => ?_, loadFrom_eq_with_mem s 0 image⟩,
    fun image s h => if_neg (Nat.not_le.mpr h)⟩
  simpa using loadFrom_readByte s 0 image (by omega) a

/-- Settles O52: a stopped core's cycles leave it as it is, and cycles of a running core are its steps in turn. -/
theorem runOnAStoppedCoreRunsNoCycle : Obligations.RunOnAStoppedCoreRunsNoCycle := by
  refine ⟨fun n s h => ?_, runCycles_add, fun s t h => runCycles_succ h 0⟩
  have hsame := runCycles_of_not_running h n
  have hport := runPort_of_not_running (n := n) (s := s) (by rwa [hsame])
  exact ⟨hsame, by rwa [hsame] at hport⟩

end Sys2Proof.Machine
end

section
/-! SUPPORT. What is known of FL_RESET, and that no line is enabled at reset. -/

namespace Sys2Proof.Machine

/-- Bits 7:3 of a byte are the quotient by 8 (10_state.md R26). -/
theorem toNat_extractLsb'_three_five (b : Byte) : (b.extractLsb' 3 5).toNat = b.toNat / 8 := by
  have hlt : b.toNat / 8 < 2 ^ 5 := by have := b.isLt; omega
  rw [BitVec.extractLsb'_toNat, Nat.shiftRight_eq_div_pow, Nat.mod_eq_of_lt hlt]

theorem eight_le_flReset : 8 ≤ Config.flReset.toNat := by
  have hfit : 8 + Config.flResetLess8.val < 2 ^ 8 := by omega
  rw [Config.flReset, BitVec.toNat_ofNat, Nat.mod_eq_of_lt hfit]
  exact Nat.le_add_right 8 _

/-- A reserved bit of FL_RESET is set (10_state.md R27). -/
theorem flReset_reserved_ne_zero : Config.flReset.extractLsb' 3 5 ≠ 0 := by
  intro hzero
  have hquot : Config.flReset.toNat / 8 = 0 := by rw [← toNat_extractLsb'_three_five, hzero]; rfl
  have := eight_le_flReset
  omega

/-- The interrupt mask is one of the registers that reset clears (10_state.md R22). -/
theorem reset_mask : State.reset.reg IM = 0 := resetClearsRegistersExceptTheStackPointer IM

/-- The first cycle takes no interrupt, so PC is still 0 at its fetch (70_reset_and_hazards.md R250). -/
theorem topOfCycle_reset_pc : (topOfCycle State.reset).pc = 0 := by
  rw [topOfCycle_of_mask_zero reset_mask, timerPoll_pc]
  rfl

theorem reset_running : Running State.reset := ⟨rfl, rfl⟩

/-- No cell is listed at reset, no fault is recorded, and T_ref is the time of reset itself. -/
theorem reset_inv : Inv State.reset where
  memWf := rfl
  oneStop _ := reset_running.2
  tRefPast := Nat.le_refl _

end Sys2Proof.Machine
end

section
/-! The statements of 70_reset_and_hazards.md. -/

namespace Sys2Proof.Machine

/-- Settles O47, from the invariant at reset and neither stop being set there. -/
theorem resetMeetsTheStateInvariant : Obligations.ResetMeetsTheStateInvariant := ⟨reset_inv, reset_running⟩

/-- Settles O49: FL_RESET is at least 8, and the mask 0 keeps the first cycle from entering an interrupt; the other
fields are as reset writes them. -/
theorem resetLeavesTheSpecifiedState : Obligations.ResetLeavesTheSpecifiedState :=
  ⟨rfl, fun a => Memory.read_nil a, reset_running.1, reset_running.2, rfl, rfl, flReset_reserved_ne_zero,
    topOfCycle_reset_pc⟩

end Sys2Proof.Machine
end
